-- ==== Sys2Proof/Word.lean ====
section
/-! DEFINITION. The words of the HFMN unit: bits, bytes, the command word and the response data
(spec 00_scope.md R10, R11; 30_encoding.md R72, R74). -/

namespace Sys2Proof

/-- A byte, R11: bit 7 is the most significant. -/
abbrev Byte := BitVec 8

/-- A byte sequence, R11: offset 0 (the head of a buffer) first. -/
abbrev Bytes := List Byte

/-- A bit sequence, R10: the first bit of the sequence first. -/
abbrev Bits := List Bool

/-- The command word of R72. -/
abbrev CommandWord := BitVec 16

/-- The 32-bit response data of R74, also the width of a status register (R34). -/
abbrev Data := BitVec 32

/-- `ceil8(L)` of R9: how many bytes `L` bits occupy. -/
abbrev ceil8 (l : Nat) : Nat := (l + 7) / 8

end Sys2Proof
end

