-- ==== Sys2Proof/Syntax.lean ====
section
/-! DEFINITION. The 19 commands of the HFMN unit, one constructor per row of spec/opcode_table.json (R76). -/

namespace Sys2Proof

/-- A command of R76. The operand, where there is one, is the byte `imm8` (R77). -/
inductive Instr where
  /-- `NOP`, R101. -/
  | nop
  /-- `RESET`, R102. -/
  | reset
  /-- `RDREG r`, R103. -/
  | rdreg (r : Byte)
  /-- `PUSHI v`, R111. -/
  | pushi (v : Byte)
  /-- `PUSHB b`, R112; `b` must be 0 or 1 (WellFormed). -/
  | pushb (b : Byte)
  /-- `POPO`, R113. -/
  | popo
  /-- `POPB`, R114. -/
  | popb
  /-- `CLRI`, R115. -/
  | clri
  /-- `CLRO`, R116. -/
  | clro
  /-- `CLRB`, R117. -/
  | clrb
  /-- `TBLCLR`, R131. -/
  | tblclr
  /-- `TBLSET s`, R132. -/
  | tblset (s : Byte)
  /-- `TBLGET s`, R133. -/
  | tblget (s : Byte)
  /-- `LDTBL`, R136. -/
  | ldtbl
  /-- `STTBL`, R140. -/
  | sttbl
  /-- `PACK`, R150. -/
  | pack
  /-- `UNPACK`, R155. -/
  | unpack
  /-- `ENCODE`, R170. -/
  | encode
  /-- `DECODE`, R180. -/
  | decode
deriving DecidableEq, Repr

end Sys2Proof
end

