-- ==== Sys2Proof/WellFormed.lean ====
section
/-! DEFINITION. Which terms of `Instr` are legal commands: the one operand check of R72 and R77. -/

namespace Sys2Proof

/-- R72, format `IMM1`, and R112: bits 7..1 of `PUSHB`'s operand must be 0.
R79: every operand value of the `IMM8` commands is legal; the `SYS0` commands have no operand. -/
def Instr.wf : Instr → Bool
  | .nop => true
  | .reset => true
  | .rdreg _ => true
  | .pushi _ => true
  | .pushb b => b.toNat < 2
  | .popo => true
  | .popb => true
  | .clri => true
  | .clro => true
  | .clrb => true
  | .tblclr => true
  | .tblset _ => true
  | .tblget _ => true
  | .ldtbl => true
  | .sttbl => true
  | .pack => true
  | .unpack => true
  | .encode => true
  | .decode => true

end Sys2Proof
end

