-- ==== Sys2Proof/Decode.lean ====
section
/-! DEFINITION. The command decoder, total on every 16-bit word, the encoder, and the opcode map of R76. -/

namespace Sys2Proof

/-- `w[15:8]` of R72. -/
def opField (w : CommandWord) : Byte := w.extractLsb' 8 8

/-- `w[7:0]` of R72. -/
def immField (w : CommandWord) : Byte := w.extractLsb' 0 8

/-- The word with opcode `op` and operand byte `imm`: `op · 256 + imm` (R72, R80). -/
def mkWord (op imm : Byte) : CommandWord := BitVec.ofNat 16 (op.toNat * 256 + imm.toNat)

/-- Format `SYS0` of R72: all 8 bits of `imm8` must be 0. -/
def decodeSys0 (i : Instr) (imm : Byte) : Option Instr := if imm = 0#8 then some i else none

/-- Format `IMM1` of R72: bits 7..1 of `imm8` must be 0. -/
def decodeImm1 (f : Byte → Instr) (imm : Byte) : Option Instr := if imm.toNat < 2 then some (f imm) else none

/-- The opcode map of R76 on the two fields; `none` is an illegal word (R78). -/
def decodeFields (op imm : Byte) : Option Instr :=
  match op with
  | 0x00#8 => decodeSys0 .nop imm
  | 0x01#8 => decodeSys0 .reset imm
  | 0x02#8 => some (.rdreg imm)
  | 0x10#8 => some (.pushi imm)
  | 0x11#8 => decodeImm1 .pushb imm
  | 0x12#8 => decodeSys0 .popo imm
  | 0x13#8 => decodeSys0 .popb imm
  | 0x14#8 => decodeSys0 .clri imm
  | 0x15#8 => decodeSys0 .clro imm
  | 0x16#8 => decodeSys0 .clrb imm
  | 0x20#8 => decodeSys0 .tblclr imm
  | 0x21#8 => some (.tblset imm)
  | 0x22#8 => some (.tblget imm)
  | 0x23#8 => decodeSys0 .ldtbl imm
  | 0x24#8 => decodeSys0 .sttbl imm
  | 0x30#8 => decodeSys0 .pack imm
  | 0x31#8 => decodeSys0 .unpack imm
  | 0x32#8 => decodeSys0 .encode imm
  | 0x33#8 => decodeSys0 .decode imm
  | _ => none

/-- The decoder of R72: a total function from the 65 536 words to a command or "illegal" (`none`, R78). -/
def decode (w : CommandWord) : Option Instr := decodeFields (opField w) (immField w)

/-- The word of a command, from the `op` column of R76. -/
def encode : Instr → CommandWord
  | .nop => mkWord 0x00#8 0#8
  | .reset => mkWord 0x01#8 0#8
  | .rdreg r => mkWord 0x02#8 r
  | .pushi v => mkWord 0x10#8 v
  | .pushb b => mkWord 0x11#8 b
  | .popo => mkWord 0x12#8 0#8
  | .popb => mkWord 0x13#8 0#8
  | .clri => mkWord 0x14#8 0#8
  | .clro => mkWord 0x15#8 0#8
  | .clrb => mkWord 0x16#8 0#8
  | .tblclr => mkWord 0x20#8 0#8
  | .tblset s => mkWord 0x21#8 s
  | .tblget s => mkWord 0x22#8 s
  | .ldtbl => mkWord 0x23#8 0#8
  | .sttbl => mkWord 0x24#8 0#8
  | .pack => mkWord 0x30#8 0#8
  | .unpack => mkWord 0x31#8 0#8
  | .encode => mkWord 0x32#8 0#8
  | .decode => mkWord 0x33#8 0#8

/-- The mnemonic of a command, as R76 spells it. -/
def Instr.mnemonic : Instr → String
  | .nop => "NOP"
  | .reset => "RESET"
  | .rdreg _ => "RDREG"
  | .pushi _ => "PUSHI"
  | .pushb _ => "PUSHB"
  | .popo => "POPO"
  | .popb => "POPB"
  | .clri => "CLRI"
  | .clro => "CLRO"
  | .clrb => "CLRB"
  | .tblclr => "TBLCLR"
  | .tblset _ => "TBLSET"
  | .tblget _ => "TBLGET"
  | .ldtbl => "LDTBL"
  | .sttbl => "STTBL"
  | .pack => "PACK"
  | .unpack => "UNPACK"
  | .encode => "ENCODE"
  | .decode => "DECODE"

/-- A row of the opcode map R76: a word `w` selects it when `w AND mask = pattern` (the column `match`). -/
structure OpcodeRow where
  mnemonic : String
  pattern : CommandWord
  mask : CommandWord
deriving DecidableEq, Repr

/-- The 19 rows of R76, written from its `match` and `mask` columns and used by no other definition:
the decoder above is written from the `op` column and the formats of R72. -/
def opcodeRows : List OpcodeRow :=
  [⟨"NOP", 0x0000#16, 0xFFFF#16⟩, ⟨"RESET", 0x0100#16, 0xFFFF#16⟩, ⟨"RDREG", 0x0200#16, 0xFF00#16⟩,
   ⟨"PUSHI", 0x1000#16, 0xFF00#16⟩, ⟨"PUSHB", 0x1100#16, 0xFFFE#16⟩, ⟨"POPO", 0x1200#16, 0xFFFF#16⟩,
   ⟨"POPB", 0x1300#16, 0xFFFF#16⟩, ⟨"CLRI", 0x1400#16, 0xFFFF#16⟩, ⟨"CLRO", 0x1500#16, 0xFFFF#16⟩,
   ⟨"CLRB", 0x1600#16, 0xFFFF#16⟩] ++
  [⟨"TBLCLR", 0x2000#16, 0xFFFF#16⟩, ⟨"TBLSET", 0x2100#16, 0xFF00#16⟩, ⟨"TBLGET", 0x2200#16, 0xFF00#16⟩,
   ⟨"LDTBL", 0x2300#16, 0xFFFF#16⟩, ⟨"STTBL", 0x2400#16, 0xFFFF#16⟩, ⟨"PACK", 0x3000#16, 0xFFFF#16⟩,
   ⟨"UNPACK", 0x3100#16, 0xFFFF#16⟩, ⟨"ENCODE", 0x3200#16, 0xFFFF#16⟩, ⟨"DECODE", 0x3300#16, 0xFFFF#16⟩]

/-- What the decoder reads from a command whose bits are `w`, numbered as spec/opcode_table.json numbers them.
A command is one word, not a byte stream (R53), so no byte order arises; bits above `nbits` are 0, and a
number that does not fit in the 16 bits of a command word is no command (log entry 7). -/
def decodeTableWord (nbits w : Nat) : Option Instr :=
  let v := w % 2 ^ nbits
  if v < 2 ^ 16 then decode (BitVec.ofNat 16 v) else none

end Sys2Proof
end

