-- ==== Sys2Proof/Machine/BitOrder.lean ====
section
/-! DEFINITION. Bit sequences and their MSB-first conversion to and from bytes (00_scope.md R10, R12; 20_memory.md R52). -/

namespace Sys2Proof.Machine

/-- `zeros(k)` of R10. -/
def zeros (k : Nat) : Bits := List.replicate k false

/-- `isPrefix(a, s)` of R10. -/
def isPrefix (a s : Bits) : Bool := a.isPrefixOf s

/-- `bitsOfByte(b)` of R12: bit 7 first. -/
def bitsOfByte (b : Byte) : Bits :=
  [b.getLsbD 7, b.getLsbD 6, b.getLsbD 5, b.getLsbD 4, b.getLsbD 3, b.getLsbD 2, b.getLsbD 1, b.getLsbD 0]

/-- `byteOfBits(s)` of R12 for eight bits `s[0] … s[7]`: the sum of `s[k] · 2^(7−k)`. -/
def byteOfBits (s0 s1 s2 s3 s4 s5 s6 s7 : Bool) : Byte :=
  BitVec.ofNat 8 (s0.toNat * 128 + s1.toNat * 64 + s2.toNat * 32 + s3.toNat * 16
    + s4.toNat * 8 + s5.toNat * 4 + s6.toNat * 2 + s7.toNat * 1)

/-- `bitsOfBytes(B)` of R12. -/
def bitsOfBytes (b : Bytes) : Bits := b.flatMap bitsOfByte

/-- `bytesOfBits(s)` of R12, which defines it for a length that is a multiple of 8; every caller gives it such a
length, and what is left after the last whole byte is dropped (log entry 12). -/
def bytesOfBits : Bits → Bytes
  | s0 :: s1 :: s2 :: s3 :: s4 :: s5 :: s6 :: s7 :: rest => byteOfBits s0 s1 s2 s3 s4 s5 s6 s7 :: bytesOfBits rest
  | _ => []

end Sys2Proof.Machine
end

