-- ==== Sys2Proof/Config.lean ====
section
/-! DEFINITION. What the spec fixes for every unit (R5) and the three capacities it leaves open (R6). -/

namespace Sys2Proof

/-- The capacities of R6, an instance's own constants: `IBUF_CAP` and `OBUF_CAP` in bytes, `BITS_CAP` in bits. -/
structure Capacities where
  ibuf : Nat
  obuf : Nat
  bits : Nat
deriving DecidableEq, Repr

/-- R6: every capacity is in `1 .. 2^32 − 1`. -/
abbrev Capacities.wf (c : Capacities) : Prop :=
  (1 ≤ c.ibuf ∧ c.ibuf < 2 ^ 32) ∧ (1 ≤ c.obuf ∧ c.obuf < 2 ^ 32) ∧ (1 ≤ c.bits ∧ c.bits < 2 ^ 32)

namespace Config

/-- `ALPHA_MAX` of R5: the largest number of table entries. -/
abbrev alphaMax : Nat := 256

/-- `CODE_MAX` of R5: the longest representable code, in bits. -/
abbrev codeMax : Nat := 255

/-- `PAD_MIN` of R5. -/
abbrev padMin : Nat := 1

/-- `PAD_MAX` of R5. -/
abbrev padMax : Nat := 8

/-- `MAGIC` of R5: the four bytes of the metadata marker.
PRESUMED by the spec itself (its item G1: the ASCII codes of H, F, M, N), log entry 14. -/
def magic : Bytes := [0x48#8, 0x46#8, 0x4D#8, 0x4E#8]

/-- DESIGN CHOICE (log entry 1), unsafe for a claim about `State.reset` alone: the spec leaves the capacities
open; these are the ones of its test vectors (95_test_vectors.md, Conventions). -/
def capacities : Capacities := ⟨64, 64, 64⟩

end Config
end Sys2Proof
end

