-- ==== Sys2Proof/Machine/State.lean ====
section
/-! DEFINITION. The state of the HFMN unit as plain data (10_state.md R20), and the state after reset (R39). -/

namespace Sys2Proof.Machine

/-- Why a step of the MACHINE stops: never. R73: "`exec` is total and deterministic: every state and every word
give exactly one next state and one response". A fault of the spec (R200) is a next state with `ERR` written,
see `FaultKind`, so this type has no constructor; log entry 9, safe. -/
inductive Fault where
deriving DecidableEq, Repr

/-- Why the model gives no meaning. -/
inductive Refusal where
  /-- An arm of `exec` without a meaning. No arm of this model raises it; it would be safe. -/
  | notModelled (mnemonic : String)
deriving DecidableEq, Repr

/-- The six faults of R201 by name. Their numbers are `FaultKind.code`. -/
inductive FaultKind where
  /-- The bytes in `IBUF` are not the format the command expects. -/
  | formatError
  /-- `BITS` is not a concatenation of codes of `CT`. -/
  | decodeError
  /-- A byte in `IBUF` has no entry in `CT`. -/
  | lookupError
  /-- An append would exceed a capacity, or a pop found its buffer empty. -/
  | bufferError
  /-- The command word is not a legal encoding. -/
  | illegalCommand
  /-- `CT`, or the code offered to it, is not usable for the command. -/
  | tableError
deriving DecidableEq, Repr

/-- `fail(F, info)` of R14: how a pure function fails, and the position it reports. -/
structure Failure where
  kind : FaultKind
  info : Nat
deriving DecidableEq, Repr

/-- The response of a transaction, R74. -/
structure Response where
  err : BitVec 8
  data : Data
deriving DecidableEq, Repr

/-- What the host can do (R238): send a command word, or pulse `rst` (R230). -/
inductive HostAction where
  | command (w : CommandWord)
  | rst
deriving DecidableEq, Repr

/-- A code of R25: its first bit is the first bit sent and the first bit matched. -/
abbrev Code := Bits

/-- `CT` of R25: the present entries, in ascending symbol order. A symbol that is not listed is `none`.
Canonical form and code lengths: `CodeTable.wf` in CodeTable.lean (log entry 13). -/
abbrev CodeTable := List (Byte × Code)

/-- The seven state elements of R20, then three fields of the model's own. -/
structure State where
  /-- `IBUF`, R21: head first. -/
  ibuf : Bytes
  /-- `OBUF`, R22: head first. -/
  obuf : Bytes
  /-- `BITS`, R23: head first. -/
  bits : Bits
  /-- `CT`, R25. -/
  ct : CodeTable
  /-- `ERR`, R31: 0 is READY. -/
  err : BitVec 8
  /-- `ERRINFO`, R32. -/
  errinfo : BitVec 32
  /-- `PAD`, R33. -/
  pad : BitVec 4
  /-- The model's own: the capacities of R6, constants of the instance. No step writes them (log entry 1). -/
  cap : Capacities
  /-- The model's own: what the host sends next, in order (R29, R238; log entry 2). -/
  requests : List HostAction
  /-- The model's own: the response of the last transaction, if it delivered one (R73, R74; log entry 5). -/
  rsp : Option Response
deriving DecidableEq, Repr

/-- The reset state of R39 at capacities `c`, with no request pending and no response delivered. -/
def State.resetAt (c : Capacities) : State :=
  { ibuf := [], obuf := [], bits := [], ct := [], err := 0#8, errinfo := 0#32, pad := 0#4,
    cap := c, requests := [], rsp := none }

/-- The machine right after reset. R39 gives every element; the capacities are log entry 1. -/
def State.reset : State := State.resetAt Config.capacities

end Sys2Proof.Machine
end

