-- ==== Sys2Proof/Machine/CodeTable.lean ====
section
/-! DEFINITION. The code table `CT` as a mapping from symbols to codes (10_state.md R25 to R27; 42_table.md R130). -/

namespace Sys2Proof.Machine

/-- `CT[s]` of R13: the code of symbol `s`, or `none`. -/
def codeOf : CodeTable → Byte → Option Code
  | [], _ => none
  | (a, c) :: rest, s => if a = s then some c else codeOf rest s

/-- `CT[s] <- c` of R13. R130: writing a present symbol replaces its code; it adds no second entry. -/
def putCode : CodeTable → Byte → Code → CodeTable
  | [], s, c => [(s, c)]
  | (a, d) :: rest, s, c =>
    if a = s then (s, c) :: rest
    else if s.toNat < a.toNat then (s, c) :: (a, d) :: rest
    else (a, d) :: putCode rest s c

/-- `TCNT` of R25: the number of present symbols. -/
def tcnt (t : CodeTable) : Nat := t.length

/-- `dom(CT)` of R13, ascending. -/
def dom (t : CodeTable) : List Byte := t.map Prod.fst

/-- `prefixFree(CT)` of R183: for all symbols `a ≠ b` present, the code of `a` is no prefix of the code of `b`. -/
def prefixFree (t : CodeTable) : Bool :=
  t.all fun e => t.all fun f => decide (e.1 = f.1) || !isPrefix e.2 f.2

/-- The canonical form of a table (log entry 13): symbols strictly ascending, so each is listed once. -/
def CodeTable.canonical : CodeTable → Bool
  | [] => true
  | e :: rest => rest.all (fun f => decide (e.1.toNat < f.1.toNat)) && CodeTable.canonical rest

/-- R26: every stored code has 1 to 255 bits. -/
def CodeTable.codesOk (t : CodeTable) : Bool :=
  t.all fun e => decide (1 ≤ e.2.length ∧ e.2.length ≤ Config.codeMax)

/-- What every table the unit holds satisfies (R25, R26). -/
def CodeTable.wf (t : CodeTable) : Bool := CodeTable.canonical t && CodeTable.codesOk t

end Sys2Proof.Machine
end

