-- ==== Sys2Proof/Machine/Ops.lean ====
section
/-! DEFINITION. The shared operations of every command: the response (30_encoding.md R74), the fault entry
(60_exceptions.md R207), the FAULTED check (R208), reset (10_state.md R39), and the appends with their capacity
check (R204). -/

namespace Sys2Proof.Machine

/-- What one step of the machine answers. -/
abbrev Result := Host.Outcome State Fault Refusal

/-- A count as a 32-bit value: `zext_32` of R13. Every count fits while the capacities are those of R6 (log entry 10). -/
def zext32 (n : Nat) : Data := BitVec.ofNat 32 n

/-- The fault codes of R201. -/
def FaultKind.code : FaultKind → BitVec 8
  | .formatError => 1#8
  | .decodeError => 2#8
  | .lookupError => 3#8
  | .bufferError => 4#8
  | .illegalCommand => 5#8
  | .tableError => 6#8

/-- `respond(d)` of R13: deliver the response. R74: its field `err` is the value of `ERR` after the command. -/
def respond (d : Data) (s : State) : State := { s with rsp := some ⟨s.err, d⟩ }

/-- `raise F(info)`, the fault entry of R207: `ERR` and `ERRINFO` are written, the response carries both, and
nothing else changes. This is the machine's one exception entry. -/
def raise (f : FaultKind) (info : Nat) (s : State) : State :=
  { s with err := f.code, errinfo := zext32 info, rsp := some ⟨f.code, zext32 info⟩ }

/-- R14: a command that calls a function that fails turns the failure into `raise`. -/
def raiseFailure (f : Failure) (s : State) : State := raise f.kind f.info s

/-- R208: in FAULTED a command is answered with `(err = ERR, data = ERRINFO)` and does nothing. -/
def answerFaulted (s : State) : State := { s with rsp := some ⟨s.err, s.errinfo⟩ }

/-- R73 steps 2 and 4: a command's own rule applies only in READY (`ERR = 0`, R31). -/
def whenReady (s : State) (body : State → State) : Result :=
  .next (if s.err = 0#8 then body s else answerFaulted s)

/-- R39: every element of R20 at its reset value. This is the one way out of FAULTED (R210). -/
def toReset (s : State) : State :=
  { s with ibuf := [], obuf := [], bits := [], ct := [], err := 0#8, errinfo := 0#32, pad := 0#4 }

/-- A pulse of the `rst` port, R230: the reset state, and no response is delivered (log entry 4). -/
def hardReset (s : State) : State := { toReset s with rsp := none }

/-- R73 steps 2 and 3 for a word that is no legal encoding (R78): ignored in FAULTED; in READY `IllegalCommand`
with the word in `ERRINFO` (R206). -/
def illegalWord (w : CommandWord) (s : State) : State :=
  if s.err = 0#8 then raise .illegalCommand w.toNat s else answerFaulted s

/-- Append a result to `OBUF`, or raise `BufferError` with its length before the command (R204, R202). -/
def appendObuf (y : Bytes) (k : State → State) (s : State) : State :=
  if s.obuf.length + y.length > s.cap.obuf then raise .bufferError s.obuf.length s
  else k { s with obuf := s.obuf ++ y }

/-- Append a result to `BITS`, or raise `BufferError` with its length before the command (R204, R202). -/
def appendBits (r : Bits) (k : State → State) (s : State) : State :=
  if s.bits.length + r.length > s.cap.bits then raise .bufferError s.bits.length s
  else k { s with bits := s.bits ++ r }

end Sys2Proof.Machine
end

