-- ==== Sys2Proof/Machine/Flags.lean ====
section
/-! DEFINITION. The `STATUS` flags of 10_state.md R35, each a pure function of the state. -/

namespace Sys2Proof.Machine

def iempty (s : State) : Bool := s.ibuf.length = 0
def oempty (s : State) : Bool := s.obuf.length = 0
def bempty (s : State) : Bool := s.bits.length = 0
def tempty (s : State) : Bool := tcnt s.ct = 0
def ifull (s : State) : Bool := s.ibuf.length = s.cap.ibuf
def ofull (s : State) : Bool := s.obuf.length = s.cap.obuf
def bfull (s : State) : Bool := s.bits.length = s.cap.bits
def tfull (s : State) : Bool := tcnt s.ct = Config.alphaMax

/-- The 32-bit word whose one bit, bit `k`, is the flag. -/
def flagBit (k : Nat) (flag : Bool) : Data := if flag then BitVec.twoPow 32 k else 0#32

/-- The register `STATUS` of R35: `ERR` in bits 7..0, the EMPTY flags in bits 8 to 11, the FULL flags in bits 12 to 15,
zeros in the reserved bits 31..16. -/
def status (s : State) : Data :=
  s.err.setWidth 32 ||| flagBit 8 (iempty s) ||| flagBit 9 (oempty s) ||| flagBit 10 (bempty s) |||
    flagBit 11 (tempty s) ||| flagBit 12 (ifull s) ||| flagBit 13 (ofull s) ||| flagBit 14 (bfull s) |||
    flagBit 15 (tfull s)

end Sys2Proof.Machine
end

