-- ==== Sys2Proof/Machine/Operands.lean ====
section
/-! DEFINITION. The operand forms of the commands: the operand byte `imm8` as a register number or a bit value
(30_encoding.md R77, 10_state.md R34). The other operands are the implicit buffers of R24. -/

namespace Sys2Proof.Machine

/-- `REG[r]` of R13 and R34: the status registers. R79: a number without a register reads as 0. -/
def readReg (r : Byte) (s : State) : Data :=
  if r = 0x00#8 then status s
  else if r = 0x01#8 then s.errinfo
  else if r = 0x02#8 then s.pad.setWidth 32
  else if r = 0x03#8 then zext32 s.ibuf.length
  else if r = 0x04#8 then zext32 s.obuf.length
  else if r = 0x05#8 then zext32 s.bits.length
  else if r = 0x06#8 then zext32 (tcnt s.ct)
  else if r = 0x07#8 then zext32 s.cap.ibuf
  else if r = 0x08#8 then zext32 s.cap.obuf
  else if r = 0x09#8 then zext32 s.cap.bits
  else 0#32

/-- `PUSHB`'s operand as a bit (R77: only bit 0 is the operand). -/
def bitOperand (b : Byte) : Bool := b.getLsbD 0

end Sys2Proof.Machine
end

