-- ==== Sys2Proof/Machine/BufferAccess.lean ====
section
/-! DEFINITION. The buffer access commands `PUSHI`, `PUSHB`, `POPO`, `POPB`, `CLRI`, `CLRO`, `CLRB` (41_buffer_access.md). -/

namespace Sys2Proof.Machine

/-- `PUSHI v`, R111. -/
def execPushi (v : Byte) (s : State) : Result :=
  whenReady s fun s =>
    if s.ibuf.length = s.cap.ibuf then raise .bufferError s.ibuf.length s
    else respond 0#32 { s with ibuf := s.ibuf ++ [v] }

/-- `PUSHB b`, R112. An operand of 2 or more is the illegal word `0x1100 + b` (R78): `IllegalCommand` (log entry 8);
the decoder never gives it. -/
def execPushb (b : Byte) (s : State) : Result :=
  whenReady s fun s =>
    if 2 ≤ b.toNat then illegalWord (encode (.pushb b)) s
    else if s.bits.length = s.cap.bits then raise .bufferError s.bits.length s
    else respond 0#32 { s with bits := s.bits ++ [bitOperand b] }

/-- `POPO`, R113. -/
def execPopo (s : State) : Result :=
  whenReady s fun s =>
    match s.obuf with
    | [] => raise .bufferError 0 s
    | v :: rest => respond (v.setWidth 32) { s with obuf := rest }

/-- `POPB`, R114. -/
def execPopb (s : State) : Result :=
  whenReady s fun s =>
    match s.bits with
    | [] => raise .bufferError 0 s
    | b :: rest => respond (zext32 b.toNat) { s with bits := rest }

/-- `CLRI`, R115. -/
def execClri (s : State) : Result := whenReady s fun s => respond 0#32 { s with ibuf := [] }

/-- `CLRO`, R116. -/
def execClro (s : State) : Result := whenReady s fun s => respond 0#32 { s with obuf := [] }

/-- `CLRB`, R117. -/
def execClrb (s : State) : Result := whenReady s fun s => respond 0#32 { s with bits := [] }

end Sys2Proof.Machine
end

