-- ==== Sys2Proof/Machine/Decoder.lean ====
section
/-! DEFINITION. The prefix-code decoder: `decode(s, CT)`, its bit-serial form, and `DECODE` (45_decode.md). -/

namespace Sys2Proof.Machine

/-- The one element of `M` in R181: the entry whose code is a prefix of the upcoming bits. Under `prefixFree`
there is at most one (R182); without it the first listed is taken, which `DECODE` never reaches (log entry 17). -/
def matchEntry (t : CodeTable) (upcoming : Bits) : Option (Byte × Code) :=
  t.find? fun e => isPrefix e.2 upcoming

/-- The loop of R181: `cur` is the cursor of R30 and `upcoming` is `drop(cur, s)`. `fuel` bounds the number of
iterations, which R186 shows to be at most `len(s)`; it runs out only for a table with an empty code, which no
reachable state holds (R26; log entry 11). -/
def decodeFrom (t : CodeTable) : (fuel cur : Nat) → (upcoming : Bits) → Except Failure Bytes
  | _, _, [] => .ok []
  | 0, cur, _ :: _ => .error ⟨.decodeError, cur⟩
  | fuel + 1, cur, b :: rest =>
    match matchEntry t (b :: rest) with
    | none => .error ⟨.decodeError, cur⟩
    | some (a, c) => (decodeFrom t fuel (cur + c.length) ((b :: rest).drop c.length)).map (a :: ·)

/-- `decode(s, CT)` of R181. -/
def decodeBits (s : Bits) (t : CodeTable) : Except Failure Bytes := decodeFrom t s.length 0 s

/-- The loop of R187 from bit index `i` on: `acc` is the path from the trie's root, `start` the index of its first bit.
R187 requires `prefixFree(CT)` and gives no value on another table. DESIGN CHOICE there (log entry 17): the loop runs
all the same, so the shortest code that the bits spell is emitted first, and of equal codes the first listed symbol's. -/
def decodeSerialFrom (t : CodeTable) : (i start : Nat) → (acc : Bits) → (upcoming : Bits) → Except Failure Bytes
  | _, start, acc, [] => if acc = [] then .ok [] else .error ⟨.decodeError, start⟩
  | i, start, acc, b :: rest =>
    match t.find? fun e => decide (e.2 = acc ++ [b]) with
    | some (a, _) => (decodeSerialFrom t (i + 1) (i + 1) [] rest).map (a :: ·)
    | none =>
      if t.any fun e => isPrefix (acc ++ [b]) e.2 && decide (e.2 ≠ acc ++ [b]) then
        decodeSerialFrom t (i + 1) start (acc ++ [b]) rest
      else .error ⟨.decodeError, start⟩

/-- `decodeSerial(s, CT)` of R187, the recommended realisation (informative). It requires `prefixFree(CT)`; what it
answers on another table is the model's choice (log entry 17). -/
def decodeSerial (s : Bits) (t : CodeTable) : Except Failure Bytes := decodeSerialFrom t 0 0 [] s

/-- The end of `DECODE`: `BITS <- empty; respond(len(r))` (R180). -/
def decodeDone (n : Nat) (s : State) : State := respond (zext32 n) { s with bits := [] }

/-- `DECODE`, R180: the table check first (R184), then the stream, then the capacity (R211). -/
def execDecode (s : State) : Result :=
  whenReady s fun s =>
    if prefixFree s.ct = false then raise .tableError 0 s
    else
      match decodeBits s.bits s.ct with
      | .error f => raiseFailure f s
      | .ok r => appendObuf r (decodeDone r.length) s

end Sys2Proof.Machine
end

