-- ==== Sys2Proof/Machine/Encoder.lean ====
section
/-! DEFINITION. The encoder: `encode(B, CT)` and `ENCODE` (44_encode.md). -/

namespace Sys2Proof.Machine

/-- The loop of R171 from index `i` of the input on, of which `b` is what is left. -/
def encodeFrom (t : CodeTable) : (i : Nat) → (b : Bytes) → Except Failure Bits
  | _, [] => .ok []
  | i, a :: rest =>
    match codeOf t a with
    | none => .error ⟨.lookupError, i⟩
    | some c => (encodeFrom t (i + 1) rest).map (c ++ ·)

/-- `encode(B, CT)` of R171. -/
def encodeBytes (b : Bytes) (t : CodeTable) : Except Failure Bits := encodeFrom t 0 b

/-- The end of `ENCODE`: `IBUF <- empty; respond(len(r))` (R170). -/
def encodeDone (n : Nat) (s : State) : State := respond (zext32 n) { s with ibuf := [] }

/-- `ENCODE`, R170. -/
def execEncode (s : State) : Result :=
  whenReady s fun s =>
    match encodeBytes s.ibuf s.ct with
    | .error f => raiseFailure f s
    | .ok r => appendBits r (encodeDone r.length) s

end Sys2Proof.Machine
end

