-- ==== Sys2Proof/Machine/PackUnpack.lean ====
section
/-! DEFINITION. The bit packer: `pack`, `unpack`, `PACK`, `UNPACK` (43_pack_unpack.md). -/

namespace Sys2Proof.Machine

/-- The padding count `P = 8 − (n mod 8)` of R83 and R151, in 1..8 (R84: never 0). -/
def padCount (n : Nat) : Nat := 8 - n % 8

/-- `pack(s)` of R151: the padding byte, then the bits with `P` zero bits after them. -/
def pack (s : Bits) : Bytes :=
  BitVec.ofNat 8 (padCount s.length) :: bytesOfBits (s ++ zeros (padCount s.length))

/-- `unpack(B)` of R156. -/
def unpack (b : Bytes) : Except Failure Bits :=
  match b with
  | [] => .error ⟨.formatError, 0⟩
  | p :: y =>
    if p.toNat < Config.padMin ∨ p.toNat > Config.padMax then .error ⟨.formatError, 0⟩
    else if y.length = 0 then .error ⟨.formatError, 1⟩
    else .ok ((bitsOfBytes y).take (8 * y.length - p.toNat))

/-- The end of `PACK`: `PAD <- P; BITS <- empty; respond(P)` (R150). -/
def packDone (p : Nat) (s : State) : State :=
  respond (zext32 p) { s with pad := BitVec.ofNat 4 p, bits := [] }

/-- The end of `UNPACK`: `PAD <- IBUF[0]; IBUF <- empty; respond(PAD)` (R155). -/
def unpackDone (p : Nat) (s : State) : State :=
  respond (zext32 p) { s with pad := BitVec.ofNat 4 p, ibuf := [] }

/-- `PACK`, R150. -/
def execPack (s : State) : Result :=
  whenReady s fun s => appendObuf (pack s.bits) (packDone (padCount s.bits.length)) s

/-- `UNPACK`, R155. `IBUF[0]` exists whenever `unpack` succeeds. -/
def execUnpack (s : State) : Result :=
  whenReady s fun s =>
    match unpack s.ibuf with
    | .error f => raiseFailure f s
    | .ok r => appendBits r (unpackDone (s.ibuf.headD 0#8).toNat) s

end Sys2Proof.Machine
end

