-- ==== Sys2Proof/Machine/System.lean ====
section
/-! DEFINITION. The system commands `NOP`, `RESET`, `RDREG` (40_system.md). -/

namespace Sys2Proof.Machine

/-- `NOP`, R101. -/
def execNop (s : State) : Result := whenReady s fun s => respond 0#32 s

/-- `RESET`, R102: executed in READY and in FAULTED alike (R73 step 1). -/
def execReset (s : State) : Result := .next (respond 0#32 (toReset s))

/-- `RDREG r`, R103: answers in FAULTED too, then with `err = ERR` (R73 step 2). -/
def execRdreg (r : Byte) (s : State) : Result := .next (respond (readReg r s) s)

end Sys2Proof.Machine
end

