-- ==== Sys2Proof/Machine/Metadata.lean ====
section
/-! DEFINITION. The metadata block: `packCode`, `unpackCode` (30_encoding.md R85), `serialize` and `deserialize`
(42_table.md R141, R137). -/

namespace Sys2Proof.Machine

/-- `packCode(c)` of R85: the code's bits, MSB first, zero-padded to whole bytes (0 to 7 bits of padding).
R85 defines it for 1 to 255 bits; other lengths, which no table of the unit holds, are log entry 19. -/
def packCode (c : Code) : Bytes := bytesOfBits (c ++ zeros ((8 - c.length % 8) % 8))

/-- `unpackCode(K, L)` of R85: the first `L` bits; the others are discarded whatever their value. -/
def unpackCode (k : Bytes) (l : Nat) : Code := (bitsOfBytes k).take l

/-- The alphabet-size byte of R87, written: 0 stands for 256. -/
def sizeByte (n : Nat) : Byte := BitVec.ofNat 8 (n % 256)

/-- The alphabet-size byte of R87, read. -/
def entryCount (a : Byte) : Nat := if a = 0#8 then Config.alphaMax else a.toNat

/-- One entry of a metadata block (R86): symbol value, code bit length, packed code bits. -/
def entryBytes (e : Byte × Code) : Bytes := [e.1, BitVec.ofNat 8 e.2.length] ++ packCode e.2

/-- `serialize(CT)` of R141: the entries in ascending symbol value. R141 defines it for a table with `TCNT ≥ 1`, and R142
gives the empty table no block. DESIGN CHOICE there (log entry 19): the magic and a size byte of 0, which `STTBL`
never writes. -/
def serialize (t : CodeTable) : Bytes := Config.magic ++ [sizeByte (tcnt t)] ++ t.flatMap entryBytes

/-- The loop of R137: `count` entries from offset `pos` of a block in a buffer of `n` bytes, of which `rest` is
what stands from `pos` on; `t` is the table built so far. A later entry replaces an earlier one (R139 c). -/
def readEntries (n : Nat) : (count pos : Nat) → (rest : Bytes) → (t : CodeTable) → Except Failure (CodeTable × Nat)
  | 0, pos, _, t => .ok (t, pos)
  | count + 1, pos, s :: l :: tail, t =>
    if l = 0#8 then .error ⟨.formatError, pos + 1⟩
    else if tail.length < ceil8 l.toNat then .error ⟨.formatError, n⟩
    else readEntries n count (pos + 2 + ceil8 l.toNat) (tail.drop (ceil8 l.toNat))
      (putCode t s (unpackCode (tail.take (ceil8 l.toNat)) l.toNat))
  | _ + 1, _, _, _ => .error ⟨.formatError, n⟩

/-- `deserialize(B)` of R137: the table and the number of bytes the block occupies, or `FormatError`. -/
def deserialize (b : Bytes) : Except Failure (CodeTable × Nat) :=
  if b.length < 4 ∨ b.take 4 ≠ Config.magic then .error ⟨.formatError, 0⟩
  else
    match b.drop 4 with
    | [] => .error ⟨.formatError, b.length⟩
    | a :: rest => readEntries b.length (entryCount a) 5 rest []

end Sys2Proof.Machine
end

