-- ==== Sys2Proof/Machine/Table.lean ====
section
/-! DEFINITION. The code-table commands `TBLCLR`, `TBLSET`, `TBLGET`, `LDTBL`, `STTBL` (42_table.md). -/

namespace Sys2Proof.Machine

/-- `TBLCLR`, R131. -/
def execTblclr (s : State) : Result := whenReady s fun s => respond 0#32 { s with ct := [] }

/-- `TBLSET a`, R132. -/
def execTblset (a : Byte) (s : State) : Result :=
  whenReady s fun s =>
    if s.bits.length = 0 ∨ s.bits.length > Config.codeMax then raise .tableError s.bits.length s
    else respond (zext32 s.bits.length) { s with ct := putCode s.ct a s.bits, bits := [] }

/-- `TBLGET a`, R133: an absent symbol is no fault and answers 0. -/
def execTblget (a : Byte) (s : State) : Result :=
  whenReady s fun s =>
    match codeOf s.ct a with
    | none => respond 0#32 s
    | some c => appendBits c (respond (zext32 c.length)) s

/-- `LDTBL`, R136: the whole table is replaced (R138), and the block alone leaves `IBUF`. -/
def execLdtbl (s : State) : Result :=
  whenReady s fun s =>
    match deserialize s.ibuf with
    | .error f => raiseFailure f s
    | .ok (t, pos) => respond (zext32 pos) { s with ct := t, ibuf := s.ibuf.drop pos }

/-- `STTBL`, R140. -/
def execSttbl (s : State) : Result :=
  whenReady s fun s =>
    if tcnt s.ct = 0 then raise .tableError 0 s
    else appendObuf (serialize s.ct) (respond (zext32 (serialize s.ct).length)) s

end Sys2Proof.Machine
end

