-- ==== Sys2Proof/Machine/Dispatch.lean ====
section
/-! DEFINITION. `exec`: one arm per command (30_encoding.md R73, R76). -/

namespace Sys2Proof.Machine

def exec (i : Instr) (s : State) : Host.Outcome State Fault Refusal :=
  match i with
  -- 40_system.md
  | .nop => Sys2Proof.Machine.execNop s
  | .reset => Sys2Proof.Machine.execReset s
  | .rdreg r => Sys2Proof.Machine.execRdreg r s
  -- 41_buffer_access.md
  | .pushi v => Sys2Proof.Machine.execPushi v s
  | .pushb b => Sys2Proof.Machine.execPushb b s
  | .popo => Sys2Proof.Machine.execPopo s
  | .popb => Sys2Proof.Machine.execPopb s
  | .clri => Sys2Proof.Machine.execClri s
  | .clro => Sys2Proof.Machine.execClro s
  | .clrb => Sys2Proof.Machine.execClrb s
  -- 42_table.md
  | .tblclr => Sys2Proof.Machine.execTblclr s
  | .tblset a => Sys2Proof.Machine.execTblset a s
  | .tblget a => Sys2Proof.Machine.execTblget a s
  | .ldtbl => Sys2Proof.Machine.execLdtbl s
  | .sttbl => Sys2Proof.Machine.execSttbl s
  -- 43_pack_unpack.md, 44_encode.md, 45_decode.md
  | .pack => Sys2Proof.Machine.execPack s
  | .unpack => Sys2Proof.Machine.execUnpack s
  | .encode => Sys2Proof.Machine.execEncode s
  | .decode => Sys2Proof.Machine.execDecode s

end Sys2Proof.Machine
end

