-- ==== Sys2Proof/Machine/Transaction.lean ====
section
/-! DEFINITION. One transaction with the host (30_encoding.md R70, R73), the `rst` pulse (70_reset_and_hazards.md R230),
and the request queue. -/

namespace Sys2Proof.Machine

/-- `exec : State × Word → State × Response` of R73 on a command word; the response is the field `rsp`.
`exec` checks RESET and FAULTED per command; an illegal word is `illegalWord`. -/
def transact (w : CommandWord) (s : State) : Result :=
  match decode w with
  | some i => exec i s
  | none => .next (illegalWord w s)

/-- One action of the host, R238. -/
def perform (a : HostAction) (s : State) : Result :=
  match a with
  | .command w => transact w s
  | .rst => .next (hardReset s)

/-- The host's next action is taken off the queue and performed. With nothing sent the unit is idle and its
state is intact (R220; log entry 3). -/
def serveNext (s : State) : Result :=
  match s.requests with
  | [] => .next s
  | a :: rest => perform a { s with requests := rest }

/-- `s` with a command word placed where the next step takes its command from: the head of the request queue
(log entries 2 and 7). -/
def presentWord (s : State) (nbits w : Nat) : State :=
  { s with requests := .command (BitVec.ofNat 16 (w % 2 ^ nbits)) :: s.requests }

end Sys2Proof.Machine
end

