-- ==== Sys2Proof/Machine/Step.lean ====
section
/-! DEFINITION. One step of the machine, and the host's placing of one command. -/

namespace Sys2Proof.Machine

/-- One step: the unit serves the host's next action (30_encoding.md R70, R73; 10_state.md R29). -/
def step (s : State) : Host.Outcome State Fault Refusal := serveNext s

/-- `s` with the command of `nbits` bits `w` presented on the request channel, so that the next step runs it.
How a program comes to run from `State.reset`: log entry 2. -/
def State.withFetchWord (s : State) (nbits w : Nat) : State := presentWord s nbits w

end Sys2Proof.Machine
end

