-- ==== Sys2Proof/Machine/Assembler.lean ====
section
/-! DEFINITION. How a host writes a command sequence down: the pseudo-instructions of 30_encoding.md R81 and the
assembler syntax of R80. No command of the unit uses this file; it turns a text into the command words a host sends. -/

namespace Sys2Proof.Machine

/-- An assembled line: a command of R76, or a pseudo-instruction of R81. -/
inductive AsmItem where
  /-- One command. -/
  | command (i : Instr)
  /-- `BYTES b0 b1 … bk`. -/
  | bytes (b : Bytes)
  /-- `BITSTR "s"`. -/
  | bitstr (s : Bits)
  /-- `SETCODE sym, "s"`. -/
  | setcode (sym : Byte) (s : Bits)
  /-- `DRAIN n`. -/
  | drain (n : Nat)
  /-- `STATUS`. -/
  | status
  /-- `.word w`: the only way to write an illegal word. -/
  | word (w : CommandWord)
deriving DecidableEq, Repr

/-- `PUSHB s[0]`, `PUSHB s[1]`, … -/
def pushbWords (s : Bits) : List CommandWord := s.map fun b => encode (.pushb (if b then 1#8 else 0#8))

/-- The expansion column of R81. -/
def AsmItem.expand : AsmItem → List CommandWord
  | .command i => [encode i]
  | .bytes b => b.map fun v => encode (.pushi v)
  | .bitstr s => pushbWords s
  | .setcode sym s => encode .clrb :: pushbWords s ++ [encode (.tblset sym)]
  | .drain n => List.replicate n (encode .popo)
  | .status => [encode (.rdreg 0x00#8)]
  | .word w => [w]

/-- What a line is made of. -/
inductive Token where
  | word (cs : List Char)
  | quoted (c : Char)
  | bits (s : Bits)
  | comma
deriving DecidableEq, Repr

/-- Inside plain text (with the word read so far, reversed), or inside a quoted bit string (likewise). -/
inductive LexMode where
  | plain (acc : List Char)
  | str (acc : Bits)
deriving DecidableEq, Repr

def flushWord (acc : List Char) (ts : List Token) : List Token := if acc = [] then ts else .word acc.reverse :: ts

/-- The tokens of a line (R80, R81): `;` outside quotes starts a comment; blanks separate words (log entry 18). -/
def lexLine : LexMode → List Char → Option (List Token)
  | .plain acc, [] => some (flushWord acc [])
  | .plain acc, '\'' :: c :: '\'' :: rest => (lexLine (.plain []) rest).map fun ts => flushWord acc (.quoted c :: ts)
  | .plain acc, c :: rest =>
    if c = ';' then some (flushWord acc [])
    else if c = '"' then (lexLine (.str []) rest).map fun ts => flushWord acc ts
    else if c = ',' then (lexLine (.plain []) rest).map fun ts => flushWord acc (.comma :: ts)
    else if c = ' ' ∨ c = '\t' then (lexLine (.plain []) rest).map fun ts => flushWord acc ts
    else lexLine (.plain (c :: acc)) rest
  | .str _, [] => none
  | .str b, c :: rest =>
    if c = '"' then (lexLine (.plain []) rest).map fun ts => .bits b.reverse :: ts
    else if c = '0' then lexLine (.str (false :: b)) rest
    else if c = '1' then lexLine (.str (true :: b)) rest
    else none

/-- The value of a digit, up to hexadecimal `F` or `f`. -/
def digitValue (c : Char) : Option Nat :=
  if '0' ≤ c ∧ c ≤ '9' then some (c.toNat - 48)
  else if 'A' ≤ c ∧ c ≤ 'F' then some (c.toNat - 55)
  else if 'a' ≤ c ∧ c ≤ 'f' then some (c.toNat - 87)
  else none

def digitsFrom (base acc : Nat) : List Char → Option Nat
  | [] => some acc
  | c :: rest =>
    match digitValue c with
    | none => none
    | some d => if d < base then digitsFrom base (base * acc + d) rest else none

/-- A non-empty run of digits of a base. -/
def digits (base : Nat) (cs : List Char) : Option Nat := if cs = [] then none else digitsFrom base 0 cs

/-- R80: a decimal number or a `0x` hexadecimal number. -/
def number : List Char → Option Nat
  | '0' :: 'x' :: ds => digits 16 ds
  | ds => digits 10 ds

def byteOfNat (n : Nat) : Option Byte := if n < 256 then some (BitVec.ofNat 8 n) else none

/-- R80: a printable ASCII character stands for its code (the spec's item G1). -/
def byteOfChar (c : Char) : Option Byte :=
  if 0x20 ≤ c.toNat ∧ c.toNat ≤ 0x7E then some (BitVec.ofNat 8 c.toNat) else none

/-- An operand byte; the character form only where `chars` allows it (R80: `PUSHI`, `TBLSET`, `TBLGET`). -/
def operandByte (chars : Bool) : Token → Option Byte
  | .word cs => (number cs).bind byteOfNat
  | .quoted c => if chars then byteOfChar c else none
  | .bits _ => none
  | .comma => none

/-- A byte of `BYTES`, in the byte-sequence notation of R11 (hexadecimal without `0x`), as in the spec's programs (log entry 18). -/
def hexByte : Token → Option Byte
  | .word cs => (digits 16 cs).bind byteOfNat
  | .quoted _ => none
  | .bits _ => none
  | .comma => none

/-- The commands without an operand. -/
def sys0Commands : List Instr :=
  [.nop, .reset, .popo, .popb, .clri, .clro, .clrb, .tblclr, .ldtbl, .sttbl, .pack, .unpack, .encode, .decode]

/-- The commands with an operand byte, and whether R80 allows a character there. -/
def operandCommands : List ((Byte → Instr) × Bool) :=
  [(.rdreg, false), (.pushi, true), (.pushb, false), (.tblset, true), (.tblget, true)]

/-- A line of R80: a mnemonic of R76, with its operand where it has one. An operand the command does not admit
is no line: `.word` is the only way to write an illegal word (R81).
DESIGN CHOICE (log entry 18): R80's "operand 0 when absent" is read as speaking of the commands without an operand
alone. So `PUSHI` with nothing after it is no line, and neither is `NOP 0`. -/
def commandLine (m : List Char) (args : List Token) : Option AsmItem :=
  match args with
  | [] => (sys0Commands.find? fun i => decide (i.mnemonic.toList = m)).map .command
  | [t] =>
    match operandCommands.find? fun f => decide ((f.1 0#8).mnemonic.toList = m) with
    | none => none
    | some (f, chars) =>
      match operandByte chars t with
      | none => none
      | some b => if (f b).wf then some (.command (f b)) else none
  | _ => none

/-- The line whose tokens are given: `none` is no line of the syntax, `some none` a blank one. -/
def lineItem (ts : List Token) : Option (Option AsmItem) :=
  match ts with
  | [] => some none
  | .word m :: args =>
    if m = "BYTES".toList then
      if args = [] then none else (args.mapM hexByte).map fun b => some (.bytes b)
    else if m = "BITSTR".toList then
      match args with
      | [.bits s] => some (some (.bitstr s))
      | _ => none
    else if m = "SETCODE".toList then
      match args with
      | [t, .comma, .bits s] => (operandByte true t).map fun sym => some (.setcode sym s)
      | _ => none
    else if m = "DRAIN".toList then
      match args with
      | [.word cs] => (number cs).map fun n => some (.drain n)
      | _ => none
    else if m = "STATUS".toList then
      if args = [] then some (some .status) else none
    else if m = ".word".toList then
      match args with
      | [.word cs] =>
        match number cs with
        | some n => if n < 2 ^ 16 then some (some (.word (BitVec.ofNat 16 n))) else none
        | none => none
      | _ => none
    else (commandLine m args).map some
  | _ => none

/-- One line of text. -/
def assembleLine (line : List Char) : Option (Option AsmItem) := (lexLine (.plain []) line).bind lineItem

/-- R80: one command per line; blank lines and comments are ignored. `none`: some line is not of the syntax. -/
def assemble (text : List Char) : Option (List CommandWord) :=
  ((text.splitOn '\n').mapM assembleLine).map fun items =>
    items.flatMap fun item =>
      match item with
      | none => []
      | some a => a.expand

end Sys2Proof.Machine
end

