-- ==== Sys2Proof/Machine/Frame.lean ====
section
/-! DEFINITION. The Frame of 30_encoding.md R89, and the command sequences of 70_reset_and_hazards.md R234, R236, R237.
No command of the unit uses this file; it says what a host sends. -/

namespace Sys2Proof.Machine

/-- A Frame, R89: a metadata block followed immediately by a payload. An empty table has no
Frame (R142, R236); what this function gives for one is the model's DESIGN CHOICE (log entry 19), and no command makes it. -/
def frame (t : CodeTable) (s : Bits) : Bytes := serialize t ++ pack s

/-- R234: the table built entry by entry, in a unit whose table is empty. -/
def tableSequence (t : CodeTable) : List AsmItem := t.map fun e => .setcode e.1 e.2

/-- Steps 1 to 5 of R236, from the reset state. -/
def compressionSequence (t : CodeTable) (b : Bytes) : List AsmItem :=
  tableSequence t ++ [.bytes b, .command .encode, .command .sttbl, .command .pack]

/-- Steps 1 to 4 of R237, from the reset state. -/
def decompressionSequence (y : Bytes) : List AsmItem :=
  [.bytes y, .command .ldtbl, .command .unpack, .command .decode]

/-- Step 6 of R236 and step 5 of R237: read `OCNT`, then pop that many bytes. -/
def drainSequence (ocnt : Nat) : List AsmItem := [.command (.rdreg 0x04#8), .drain ocnt]

/-- What the host does to send a sequence. -/
def actionsOf (l : List AsmItem) : List HostAction := (l.flatMap AsmItem.expand).map .command

end Sys2Proof.Machine
end

