-- ==== Sys2Proof/Safety.lean ====
section
/-! DEFINITION. What a reachable state satisfies (10_state.md R38), the launch premises of 70_reset_and_hazards.md R239,
and what a successful step is (60_exceptions.md R209). -/

namespace Sys2Proof.Machine

/-- R38, with R6 for the capacities and R25 for the table's form. -/
structure State.Inv (s : State) : Prop where
  /-- R6. -/
  cap : s.cap.wf
  ibuf : s.ibuf.length ≤ s.cap.ibuf
  obuf : s.obuf.length ≤ s.cap.obuf
  bits : s.bits.length ≤ s.cap.bits
  /-- R25 and R26: each symbol once, every code of 1 to 255 bits. -/
  ct : CodeTable.wf s.ct = true
  /-- R31, R201: values 7 to 255 never occur. -/
  err : s.err.toNat ≤ 6
  /-- R32. -/
  errinfo : s.err = 0#8 → s.errinfo = 0#32
  /-- R33. -/
  pad : s.pad.toNat ≤ 8

/-- P1 of R239, *clean start*: the seven elements are at their reset values. -/
def State.cleanStart (s : State) : Prop := toReset s = s

/-- P2 of R239, *no fault recorded*; also READY, R31. -/
abbrev State.ready (s : State) : Prop := s.err = 0#8

/-- P3 of R239, *room*: lower bounds on the three capacities. -/
def State.room (i o b : Nat) (s : State) : Prop := i ≤ s.cap.ibuf ∧ o ≤ s.cap.obuf ∧ b ≤ s.cap.bits

/-- The table the unit holds is a prefix code: what `DECODE` checks (R184). P4 of R239 is `State.loadsPrefixCode`. -/
abbrev State.prefixCode (s : State) : Prop := prefixFree s.ct = true

/-- The table `t` a sequence `l` loads, sent from `s`: the one in `CT` after it, no command having faulted.
DEDUCED (log entry 20): `l` is the sequence up to its last loading command, or more, as long as nothing after that
writes `CT` (R28). -/
def State.loads (s : State) (l : List HostAction) (t : CodeTable) : Prop :=
  ∃ u, core.run l.length { s with requests := l } = .next u ∧ u.ready ∧ u.ct = t

/-- P4 of R239, *prefix code*: the table the sequence loads is one. -/
def State.loadsPrefixCode (s : State) (l : List HostAction) : Prop := ∃ t, s.loads l t ∧ prefixFree t = true

/-- P5 of R239, *coverage*: every byte of the input has an entry. -/
def covered (b : Bytes) (t : CodeTable) : Prop := ∀ a ∈ b, codeOf t a ≠ none

/-- An outcome that is a next state with no fault recorded: the success condition of R209 and R239. -/
def succeeded (r : Result) : Prop := ∃ s, r = .next s ∧ s.err = 0#8

end Sys2Proof.Machine
end

