-- ==== Sys2Proof/Certificates/Slice0/Obligations.lean ====
section
/-! DEFINITION. The statements for the provers, from the numbered rules of spec/.

The capacities of R6 are a field of State, so a statement over every state is a statement over every choice of
capacities. Every next state is written out whole as a record update, so each result statement is also the frame of
its command: what the update does not name is unchanged. -/

open Sys2Proof Sys2Proof.Machine

namespace Sys2Proof.Spec

/-- The state after a fault, written from R207 and the numbers of R201 without the model's own `raise`:
`ERR`, `ERRINFO` and the response, nothing else. -/
def faulted (code info : Nat) (s : State) : State :=
  { s with err := BitVec.ofNat 8 code, errinfo := BitVec.ofNat 32 info,
           rsp := some ⟨BitVec.ofNat 8 code, BitVec.ofNat 32 info⟩ }

/-- The state with the successful response `(err = 0, data = d)` of R73 step 4. -/
def answered (d : Nat) (s : State) : State := { s with rsp := some ⟨0#8, BitVec.ofNat 32 d⟩ }

/-- An entry of a metadata block as it stands in the bytes (R86): symbol byte, length byte, code bytes. -/
structure RawEntry where
  symbol : Byte
  len : Byte
  code : Bytes
deriving DecidableEq, Repr

/-- The entry has a length of 1 to 255 and as many code bytes as that needs (R86). -/
def RawEntry.ok (e : RawEntry) : Prop := e.len ≠ 0#8 ∧ e.code.length = ceil8 e.len.toNat

/-- The bytes of an entry (R86). -/
def RawEntry.bytes (e : RawEntry) : Bytes := e.symbol :: e.len :: e.code

/-- The bits of an entry's code (R85): the first `len` bits of its code bytes. -/
def RawEntry.bits (e : RawEntry) : Bits := (bitsOfBytes e.code).take e.len.toNat

/-- A metadata block with the given entries in the given order (R86, R87). -/
def block (es : List RawEntry) : Bytes :=
  [0x48#8, 0x46#8, 0x4D#8, 0x4E#8] ++ [BitVec.ofNat 8 (es.length % 256)] ++ es.flatMap RawEntry.bytes

/-- The present symbols of a table in ascending order, found by asking for each of the 256 symbols (R25). -/
def presentSymbols (t : CodeTable) : List Byte :=
  ((List.range 256).map (BitVec.ofNat 8)).filter fun a => (codeOf t a).isSome

/-- The codes of the bytes of `b`, one after the other (R171), absent symbols counting as no bits. -/
def codesOf (t : CodeTable) (b : Bytes) : Bits := b.flatMap fun a => (codeOf t a).getD []

/-- Neither the `RESET` word nor an `rst` pulse is among the host's actions. -/
def noReset (l : List HostAction) : Prop := ∀ a ∈ l, a ≠ .rst ∧ a ≠ .command 0x0100#16

end Sys2Proof.Spec

open Sys2Proof.Spec

/-! ## Encoding: 30_encoding.md R72, R76 to R79 -/

/-- Decode and encode agree on every command with every operand, and only on legal ones (R72, R76, R77). -/
def Obligations.DecodeOfEncode : Prop :=
  ∀ i : Instr, decode (encode i) = some i ↔ i.wf = true

/-- Every word has at most one meaning: what it decodes to is well formed and encodes to the same word (R72, R76). -/
def Obligations.EncodeOfDecode : Prop :=
  ∀ (w : CommandWord) (i : Instr), decode w = some i → i.wf = true ∧ encode i = w

/-- R76: the decoder gives the command `m` on `w` exactly when the row of `m` has `w AND mask = match`; rows do not overlap. -/
def Obligations.DecoderFollowsOpcodeMap : Prop :=
  (∀ (w : CommandWord) (m : String),
    (∃ i, decode w = some i ∧ i.mnemonic = m) ↔
      ∃ row ∈ opcodeRows, row.mnemonic = m ∧ w &&& row.mask = row.pattern) ∧
  opcodeRows.Pairwise fun a b => ∀ w : CommandWord, ¬(w &&& a.mask = a.pattern ∧ w &&& b.mask = b.pattern)

/-- Words written out from the `op` column of R76 and the operand of R77, one per family and format. -/
def Obligations.WrittenWordsDecode : Prop :=
  decode 0x0000#16 = some .nop ∧ decode 0x0242#16 = some (.rdreg 0x42#8) ∧ decode 0x10FF#16 = some (.pushi 0xFF#8) ∧
  decode 0x1101#16 = some (.pushb 1#8) ∧ decode 0x1102#16 = none ∧ decode 0x2141#16 = some (.tblset 0x41#8) ∧
  decode 0x2300#16 = some .ldtbl ∧ decode 0x3000#16 = some .pack ∧ decode 0x3200#16 = some .encode ∧
  decode 0x3300#16 = some .decode ∧ decode 0x3400#16 = none ∧ decode 0x0101#16 = none

/-- R78 and R206: a word that matches no row raises `IllegalCommand` (5) with the word in READY, and is ignored in FAULTED. -/
def Obligations.IllegalWordRaises : Prop :=
  ∀ (s : State) (w : CommandWord), (∀ row ∈ opcodeRows, w &&& row.mask ≠ row.pattern) →
    (s.err = 0#8 → transact w s = .next (faulted 5 w.toNat s)) ∧
    (s.err ≠ 0#8 → transact w s = .next { s with rsp := some ⟨s.err, s.errinfo⟩ })

/-! ## The step and the transaction: R29, R59, R70, R73 -/

/-- A step runs the decoded command: the head of the request queue is taken and executed (R70, R73).
The request queue is the model's form of the request channel (log entry 2), and that a step with nothing sent changes
nothing is the model's reading of R220 (log entry 3). -/
def Obligations.StepRunsPresentedCommand : Prop :=
  (∀ (s : State) (w : CommandWord) (i : Instr) (rest : List HostAction),
    s.requests = .command w :: rest → decode w = some i → step s = exec i { s with requests := rest }) ∧
  (∀ (s : State) (w : Nat) (i : Instr), w < 2 ^ 16 → decode (BitVec.ofNat 16 w) = some i →
    step (s.withFetchWord 16 w) = exec i s) ∧
  (∀ s : State, s.requests = [] → step s = .next s)

/-- R73, its four steps in order. -/
def Obligations.TransactionOrder : Prop :=
  ∀ (w : CommandWord) (s : State),
    (w = 0x0100#16 → transact w s =
      .next { State.resetAt s.cap with requests := s.requests, rsp := some ⟨0#8, 0#32⟩ }) ∧
    (w ≠ 0x0100#16 → s.err ≠ 0#8 →
      (∀ r, decode w = some (.rdreg r) → transact w s = .next { s with rsp := some ⟨s.err, readReg r s⟩ }) ∧
      ((∀ r, decode w ≠ some (.rdreg r)) → transact w s = .next { s with rsp := some ⟨s.err, s.errinfo⟩ })) ∧
    (s.err = 0#8 → decode w = none → transact w s = .next (faulted 5 w.toNat s)) ∧
    (s.err = 0#8 → ∀ i, decode w = some i → ∃ t, exec i s = .next t ∧ transact w s = .next t ∧
      ((t.err = 0#8 ∧ ∃ d, t.rsp = some ⟨0#8, d⟩) ∨
        ∃ (f : FaultKind) (info : Nat), t = faulted f.code.toNat info s))

/-- R39 and R102: the reset state, the one `RESET` leaves from READY and from FAULTED alike; its words but one are illegal.
`State.reset` is that state at some capacities; which ones is the model's choice (log entry 1) and not stated. -/
def Obligations.ResetValues : Prop :=
  decode 0x0100#16 = some .reset ∧ (∀ b : Byte, b ≠ 0#8 → decode (0x0100#16 + b.setWidth 16) = none) ∧
  (∀ c : Capacities, (State.resetAt c).ibuf = [] ∧ (State.resetAt c).obuf = [] ∧ (State.resetAt c).bits = [] ∧
    (∀ a, codeOf (State.resetAt c).ct a = none) ∧ (State.resetAt c).err = 0#8 ∧ (State.resetAt c).errinfo = 0#32 ∧
    (State.resetAt c).pad = 0#4 ∧ (c.wf → readReg 0x00#8 (State.resetAt c) = 0x00000F00#32) ∧
    ∀ r ∈ [0x03#8, 0x04#8, 0x05#8, 0x06#8], readReg r (State.resetAt c) = 0#32) ∧
  (∃ c, State.reset = State.resetAt c) ∧
  ∀ s : State, exec .reset s = .next { State.resetAt s.cap with requests := s.requests, rsp := some ⟨0#8, 0#32⟩ }

/-- R230: a pulse of `rst` gives the reset state and delivers no response (how the model takes a pulse: log entry 4). -/
def Obligations.RstPulseResets : Prop :=
  ∀ (s : State) (rest : List HostAction), s.requests = .rst :: rest →
    step s = .next { State.resetAt s.cap with requests := rest }

/-! ## Whole-machine rules: R38, R207 to R210, R21 to R23, R28, R33, R118 -/

/-- R38: every step keeps the invariant, from every state that has it. -/
def Obligations.StepKeepsInv : Prop :=
  ∀ s t : State, s.Inv → step s = .next t → t.Inv

/-- R38 at reset, for every capacities of R6 and for the model's own (log entry 1). -/
def Obligations.ResetHasInv : Prop :=
  (∀ c : Capacities, c.wf → (State.resetAt c).Inv) ∧ State.reset.Inv

/-- R207: a transaction from READY that ends FAULTED has written `ERR` (1 to 6), `ERRINFO` and the response, and
nothing else. -/
def Obligations.FaultIsAllOrNothing : Prop :=
  ∀ (w : CommandWord) (s t : State), s.err = 0#8 → transact w s = .next t → t.err ≠ 0#8 →
    t = { s with err := t.err, errinfo := t.errinfo, rsp := some ⟨t.err, t.errinfo⟩ } ∧ t.err.toNat ≤ 6

/-- R210: only the `RESET` command and `rst` clear `ERR`, and they clear everything else too. -/
def Obligations.OnlyResetLeavesFaulted : Prop :=
  ∀ s t : State, s.err ≠ 0#8 → step s = .next t → t.err = 0#8 →
    (∃ rest, s.requests = .command 0x0100#16 :: rest ∨ s.requests = .rst :: rest) ∧
    t.ibuf = [] ∧ t.obuf = [] ∧ t.bits = [] ∧ t.ct = [] ∧ t.errinfo = 0#32 ∧ t.pad = 0#4

/-- R208: over any number of steps without a reset, a FAULTED unit keeps its fault, its buffers, its table and its padding count. -/
def Obligations.FirstFaultIsKept : Prop :=
  ∀ (k : Nat) (s t : State), s.err ≠ 0#8 → noReset s.requests → core.run k s = .next t →
    t = { s with requests := s.requests.drop k, rsp := t.rsp }

/-- R209: in a run without a reset, `ERR = 0` at the end means that no command of the run faulted. -/
def Obligations.CleanEndMeansNoFault : Prop :=
  ∀ (k : Nat) (s t : State), noReset s.requests → core.run k s = .next t → t.err = 0#8 →
    ∀ j, j ≤ k → ∃ u, core.run j s = .next u ∧ u.err = 0#8

/-- R73: every step answers a next state (the interface's fault and refusal never arise: log entry 9). R6: the
capacities are constants of the instance. A step takes exactly one host action off the queue (log entry 2). -/
def Obligations.StepKeepsCapacities : Prop :=
  ∀ s : State, ∃ t, step s = .next t ∧ t.cap = s.cap ∧ t.requests = s.requests.tail

/-- R21, R22, R23, R28, R33: no command outside the rule's list writes a buffer, the table or the padding count.
A command may write none of the request queue and the capacities. -/
def Obligations.StorageHasOnlyItsWriters : Prop :=
  ∀ (i : Instr) (s t : State), exec i s = .next t → i ≠ .reset →
    ((∀ v, i ≠ .pushi v) → i ≠ .ldtbl → i ≠ .unpack → i ≠ .encode → i ≠ .clri → t.ibuf = s.ibuf) ∧
    (i ≠ .sttbl → i ≠ .pack → i ≠ .decode → i ≠ .popo → i ≠ .clro → t.obuf = s.obuf) ∧
    ((∀ b, i ≠ .pushb b) → (∀ a, i ≠ .tblset a) → (∀ a, i ≠ .tblget a) → i ≠ .unpack → i ≠ .encode → i ≠ .pack →
      i ≠ .decode → i ≠ .popb → i ≠ .clrb → t.bits = s.bits) ∧
    (i ≠ .tblclr → (∀ a, i ≠ .tblset a) → i ≠ .ldtbl → t.ct = s.ct) ∧
    (i ≠ .pack → i ≠ .unpack → t.pad = s.pad) ∧ t.requests = s.requests ∧ t.cap = s.cap

/-- R118: the buffer access commands neither read nor write `CT` and `PAD` (with another table and another padding
count they do the same, and leave those as they were), and raise no fault but `BufferError` and `IllegalCommand`. -/
def Obligations.BufferAccessIgnoresTable : Prop :=
  ∀ i : Instr, ((∃ v, i = .pushi v) ∨ (∃ b, i = .pushb b) ∨ i = .popo ∨ i = .popb ∨ i = .clri ∨ i = .clro ∨ i = .clrb) →
    ∀ s t : State, exec i s = .next t →
      (t.ct = s.ct ∧ t.pad = s.pad) ∧
      (∀ (ct : CodeTable) (pad : BitVec 4),
        exec i { s with ct := ct, pad := pad } = .next { t with ct := ct, pad := pad }) ∧
      (s.err = 0#8 → t.err = 0#8 ∨ t.err = 4#8 ∨ t.err = 5#8)

/-! ## Status registers: R34, R35, R103 -/

/-- R35: every field of `STATUS`, and its value after reset. -/
def Obligations.StatusFields : Prop :=
  (∀ s : State,
    (status s).extractLsb' 0 8 = s.err ∧
    (status s).getLsbD 8 = decide (s.ibuf = []) ∧ (status s).getLsbD 9 = decide (s.obuf = []) ∧
    (status s).getLsbD 10 = decide (s.bits = []) ∧ (status s).getLsbD 11 = decide (tcnt s.ct = 0) ∧
    (status s).getLsbD 12 = decide (s.ibuf.length = s.cap.ibuf) ∧
    (status s).getLsbD 13 = decide (s.obuf.length = s.cap.obuf) ∧
    (status s).getLsbD 14 = decide (s.bits.length = s.cap.bits) ∧
    (status s).getLsbD 15 = decide (tcnt s.ct = 256) ∧
    (status s).extractLsb' 16 16 = 0#16) ∧
  ∀ c : Capacities, c.wf → status (State.resetAt c) = 0x00000F00#32

/-- R34 and R103: `RDREG r` answers the register in READY and in FAULTED, with `err = ERR`, and changes nothing. -/
def Obligations.RdregAnswersRegister : Prop :=
  (∀ r : Byte, decode (0x0200#16 + r.setWidth 16) = some (.rdreg r)) ∧
  ∀ s : State,
    (∀ rv ∈ [(0x00#8, status s), (0x01#8, s.errinfo), (0x02#8, BitVec.ofNat 32 s.pad.toNat),
        (0x03#8, BitVec.ofNat 32 s.ibuf.length), (0x04#8, BitVec.ofNat 32 s.obuf.length),
        (0x05#8, BitVec.ofNat 32 s.bits.length), (0x06#8, BitVec.ofNat 32 (tcnt s.ct)),
        (0x07#8, BitVec.ofNat 32 s.cap.ibuf), (0x08#8, BitVec.ofNat 32 s.cap.obuf),
        (0x09#8, BitVec.ofNat 32 s.cap.bits)],
      exec (.rdreg rv.1) s = .next { s with rsp := some ⟨s.err, rv.2⟩ }) ∧
    ∀ r : Byte, 0x0A ≤ r.toNat → exec (.rdreg r) s = .next { s with rsp := some ⟨s.err, 0#32⟩ }

/-- R25, R34: on a table in its canonical form `TCNT` is the number of the 256 symbols that are present, at most 256. -/
def Obligations.TcntCountsPresentSymbols : Prop :=
  ∀ t : CodeTable, CodeTable.canonical t = true →
    presentSymbols t = dom t ∧ tcnt t = (presentSymbols t).length ∧ tcnt t ≤ 256

/-! ## Commands, results and faults -/

/-- R101: `NOP`, in READY and in FAULTED; its other words are illegal. -/
def Obligations.NopAnswersZero : Prop :=
  decode 0x0000#16 = some .nop ∧ (∀ b : Byte, b ≠ 0#8 → decode (b.setWidth 16) = none) ∧
  ∀ s : State, (s.err = 0#8 → exec .nop s = .next (answered 0 s)) ∧
    (s.err ≠ 0#8 → exec .nop s = .next { s with rsp := some ⟨s.err, s.errinfo⟩ })

/-- R111: `PUSHI v`, with room and at a full buffer. -/
def Obligations.PushiAppendsByte : Prop :=
  (∀ v : Byte, decode (0x1000#16 + v.setWidth 16) = some (.pushi v)) ∧
  ∀ (v : Byte) (s : State), s.err = 0#8 →
    (s.ibuf.length ≠ s.cap.ibuf → exec (.pushi v) s = .next (answered 0 { s with ibuf := s.ibuf ++ [v] })) ∧
    (s.ibuf.length = s.cap.ibuf → exec (.pushi v) s = .next (faulted 4 s.ibuf.length s))

/-- R112: `PUSHB b`, with room and at a full buffer, and the words whose operand is no bit (R78). -/
def Obligations.PushbAppendsBit : Prop :=
  (∀ b : Byte, b.toNat < 2 → decode (0x1100#16 + b.setWidth 16) = some (.pushb b)) ∧
  ∀ (b : Byte) (s : State), s.err = 0#8 →
    (b.toNat < 2 → s.bits.length ≠ s.cap.bits →
      exec (.pushb b) s = .next (answered 0 { s with bits := s.bits ++ [decide (b = 1#8)] })) ∧
    (b.toNat < 2 → s.bits.length = s.cap.bits → exec (.pushb b) s = .next (faulted 4 s.bits.length s)) ∧
    (2 ≤ b.toNat → transact (0x1100#16 + b.setWidth 16) s = .next (faulted 5 (0x1100 + b.toNat) s))

/-- R113: `POPO`, from a non-empty and from an empty buffer. -/
def Obligations.PopoRemovesHeadByte : Prop :=
  decode 0x1200#16 = some .popo ∧
  ∀ s : State, s.err = 0#8 →
    (∀ (v : Byte) (rest : Bytes), s.obuf = v :: rest →
      exec .popo s = .next (answered v.toNat { s with obuf := rest })) ∧
    (s.obuf = [] → exec .popo s = .next (faulted 4 0 s))

/-- R114: `POPB`, from a non-empty and from an empty buffer. -/
def Obligations.PopbRemovesHeadBit : Prop :=
  decode 0x1300#16 = some .popb ∧
  ∀ s : State, s.err = 0#8 →
    (∀ (b : Bool) (rest : Bits), s.bits = b :: rest →
      exec .popb s = .next (answered (if b then 1 else 0) { s with bits := rest })) ∧
    (s.bits = [] → exec .popb s = .next (faulted 4 0 s))

/-- R115, R116, R117: `CLRI`, `CLRO`, `CLRB`. -/
def Obligations.ClearsEmptyOneBuffer : Prop :=
  decode 0x1400#16 = some .clri ∧ decode 0x1500#16 = some .clro ∧ decode 0x1600#16 = some .clrb ∧
  ∀ s : State, s.err = 0#8 →
    exec .clri s = .next (answered 0 { s with ibuf := [] }) ∧
    exec .clro s = .next (answered 0 { s with obuf := [] }) ∧
    exec .clrb s = .next (answered 0 { s with bits := [] })

/-- R131: `TBLCLR` makes every symbol absent and touches nothing else. -/
def Obligations.TblclrEmptiesTable : Prop :=
  decode 0x2000#16 = some .tblclr ∧
  ∀ s : State, s.err = 0#8 → ∃ ct : CodeTable, (∀ a, codeOf ct a = none) ∧ tcnt ct = 0 ∧
    exec .tblclr s = .next (answered 0 { s with ct := ct })

/-- R132 and R130: `TBLSET a` stores `BITS` as the code of `a` and of no other symbol, replacing an earlier code;
an empty or over-long code is `TableError` (6). That the table keeps its canonical form is a statement about the model's
own representation of `CT` (log entry 13), as is the premise of the clause about `TCNT`. -/
def Obligations.TblsetStoresCode : Prop :=
  (∀ a : Byte, decode (0x2100#16 + a.setWidth 16) = some (.tblset a)) ∧
  ∀ (a : Byte) (s : State), s.err = 0#8 →
    (1 ≤ s.bits.length → s.bits.length ≤ 255 → ∃ ct : CodeTable,
      exec (.tblset a) s = .next (answered s.bits.length { s with ct := ct, bits := [] }) ∧
      (∀ x, codeOf ct x = if x = a then some s.bits else codeOf s.ct x) ∧
      (CodeTable.canonical s.ct = true → CodeTable.canonical ct = true ∧
        tcnt ct = if codeOf s.ct a = none then tcnt s.ct + 1 else tcnt s.ct)) ∧
    ((s.bits.length = 0 ∨ 255 < s.bits.length) → exec (.tblset a) s = .next (faulted 6 s.bits.length s))

/-- R133: `TBLGET a` of a present and of an absent symbol, and without room. -/
def Obligations.TblgetAppendsCode : Prop :=
  (∀ a : Byte, decode (0x2200#16 + a.setWidth 16) = some (.tblget a)) ∧
  ∀ (a : Byte) (s : State), s.err = 0#8 →
    (codeOf s.ct a = none → exec (.tblget a) s = .next (answered 0 s)) ∧
    (∀ c, codeOf s.ct a = some c →
      (s.bits.length + c.length ≤ s.cap.bits →
        exec (.tblget a) s = .next (answered c.length { s with bits := s.bits ++ c })) ∧
      (s.cap.bits < s.bits.length + c.length → exec (.tblget a) s = .next (faulted 4 s.bits.length s)))

/-- R136: `LDTBL` for both answers of `deserialize`. R137 to R139: on a block of 1 to 256 entries in any order, with any
pad bits and any bytes after it, the table becomes the block's (no merge with the old one), the last entry of a symbol
counts, and the block leaves `IBUF`. `CodeTable.wf` is R26 together with the model's own canonical form of `CT`
(log entry 13). -/
def Obligations.LdtblLoadsBlock : Prop :=
  decode 0x2300#16 = some .ldtbl ∧
  (∀ s : State, s.err = 0#8 →
    (∀ t n, deserialize s.ibuf = .ok (t, n) →
      exec .ldtbl s = .next (answered n { s with ct := t, ibuf := s.ibuf.drop n })) ∧
    (∀ f, deserialize s.ibuf = .error f → f.kind = .formatError ∧ exec .ldtbl s = .next (faulted 1 f.info s))) ∧
  ∀ (s : State) (es : List RawEntry) (x : Bytes), s.err = 0#8 →
    1 ≤ es.length → es.length ≤ 256 → (∀ e ∈ es, e.ok) → s.ibuf = block es ++ x →
    ∃ ct : CodeTable,
      exec .ldtbl s = .next (answered (block es).length { s with ct := ct, ibuf := x }) ∧
      CodeTable.wf ct = true ∧
      ∀ a, codeOf ct a = (es.reverse.find? fun e => decide (e.symbol = a)).map RawEntry.bits

/-- R137, R202: where `LDTBL` faults with `FormatError` (1): a bad or short magic; a block cut short anywhere after
the magic; an entry with length 0. -/
def Obligations.LdtblRefusesMalformed : Prop :=
  ∀ s : State, s.err = 0#8 →
    (s.ibuf.take 4 ≠ [0x48#8, 0x46#8, 0x4D#8, 0x4E#8] → exec .ldtbl s = .next (faulted 1 0 s)) ∧
    (∀ (es : List RawEntry) (n : Nat), 1 ≤ es.length → es.length ≤ 256 → (∀ e ∈ es, e.ok) →
      4 ≤ n → n < (block es).length → s.ibuf = (block es).take n → exec .ldtbl s = .next (faulted 1 n s)) ∧
    (∀ (es : List RawEntry) (size a : Byte) (x : Bytes), (∀ e ∈ es, e.ok) →
      es.length < (if size = 0#8 then 256 else size.toNat) →
      s.ibuf = [0x48#8, 0x46#8, 0x4D#8, 0x4E#8] ++ [size] ++ es.flatMap RawEntry.bytes ++ [a, 0#8] ++ x →
      exec .ldtbl s = .next (faulted 1 (5 + (es.flatMap RawEntry.bytes).length + 1) s))

/-- R139 (a): bytes after the block are not read. With R26 and R138: what loads is a table in canonical form whose
codes have 1 to 255 bits. -/
def Obligations.DeserializeStopsAtBlockEnd : Prop :=
  ∀ (b : Bytes) (t : CodeTable) (n : Nat), deserialize b = .ok (t, n) →
    8 ≤ n ∧ n ≤ b.length ∧ CodeTable.wf t = true ∧ 1 ≤ tcnt t ∧
    ∀ x : Bytes, deserialize (b.take n ++ x) = .ok (t, n)

/-- R140, R141, R142: `STTBL` on a table of the unit: the magic, the size byte, the entries by ascending symbol. -/
def Obligations.SttblAppendsBlock : Prop :=
  decode 0x2400#16 = some .sttbl ∧
  ∀ s : State, s.err = 0#8 → CodeTable.wf s.ct = true → ∀ m : Bytes,
    m = [0x48#8, 0x46#8, 0x4D#8, 0x4E#8] ++ [BitVec.ofNat 8 ((presentSymbols s.ct).length % 256)] ++
      (presentSymbols s.ct).flatMap (fun a =>
        [a, BitVec.ofNat 8 ((codeOf s.ct a).getD []).length] ++ packCode ((codeOf s.ct a).getD [])) →
    (presentSymbols s.ct ≠ [] → s.obuf.length + m.length ≤ s.cap.obuf →
      exec .sttbl s = .next (answered m.length { s with obuf := s.obuf ++ m })) ∧
    (presentSymbols s.ct ≠ [] → s.cap.obuf < s.obuf.length + m.length →
      exec .sttbl s = .next (faulted 4 s.obuf.length s)) ∧
    (presentSymbols s.ct = [] → exec .sttbl s = .next (faulted 6 0 s))

/-- R88: the size of a block, and its bounds. -/
def Obligations.SerializeSize : Prop :=
  ∀ t : CodeTable, CodeTable.wf t = true → 1 ≤ tcnt t →
    (serialize t).length = 5 + (t.map fun e => 2 + ceil8 e.2.length).sum ∧
    8 ≤ (serialize t).length ∧ (serialize t).length ≤ 8709

/-- R143: the table comes back from its block, whatever follows the block. -/
def Obligations.DeserializeOfSerialize : Prop :=
  ∀ (t : CodeTable) (x : Bytes), CodeTable.wf t = true → 1 ≤ tcnt t →
    deserialize (serialize t ++ x) = .ok (t, (serialize t).length)

/-- R150: `PACK`, with room and without. -/
def Obligations.PackAppendsPayload : Prop :=
  decode 0x3000#16 = some .pack ∧
  ∀ s : State, s.err = 0#8 →
    (s.obuf.length + (s.bits.length / 8 + 2) ≤ s.cap.obuf →
      exec .pack s = .next (answered (8 - s.bits.length % 8)
        { s with obuf := s.obuf ++ pack s.bits, bits := [], pad := BitVec.ofNat 4 (8 - s.bits.length % 8) })) ∧
    (s.cap.obuf < s.obuf.length + (s.bits.length / 8 + 2) → exec .pack s = .next (faulted 4 s.obuf.length s))

/-- R155, R156, R157: `UNPACK` of a payload with room and without, and its three malformed inputs, which are
reported before the capacity is looked at (R211). -/
def Obligations.UnpackAppendsBits : Prop :=
  decode 0x3100#16 = some .unpack ∧
  ∀ s : State, s.err = 0#8 →
    (∀ (p : Byte) (y : Bytes), s.ibuf = p :: y → 1 ≤ p.toNat → p.toNat ≤ 8 → y ≠ [] →
      (s.bits.length + (8 * y.length - p.toNat) ≤ s.cap.bits →
        exec .unpack s = .next (answered p.toNat { s with
          bits := s.bits ++ (bitsOfBytes y).take (8 * y.length - p.toNat),
          ibuf := [], pad := BitVec.ofNat 4 p.toNat })) ∧
      (s.cap.bits < s.bits.length + (8 * y.length - p.toNat) →
        exec .unpack s = .next (faulted 4 s.bits.length s))) ∧
    (s.ibuf = [] → exec .unpack s = .next (faulted 1 0 s)) ∧
    (∀ (p : Byte) (y : Bytes), s.ibuf = p :: y → (p.toNat = 0 ∨ 9 ≤ p.toNat) →
      exec .unpack s = .next (faulted 1 0 s)) ∧
    (∀ p : Byte, s.ibuf = [p] → 1 ≤ p.toNat → p.toNat ≤ 8 → exec .unpack s = .next (faulted 1 1 s))

/-- R170, R171: `ENCODE` of a covered input with room and without, and of an input with a byte that has no entry:
the first such byte is reported, before the capacity is looked at (R211). -/
def Obligations.EncodeAppendsCodes : Prop :=
  decode 0x3200#16 = some .encode ∧
  ∀ s : State, s.err = 0#8 →
    (covered s.ibuf s.ct →
      (s.bits.length + (codesOf s.ct s.ibuf).length ≤ s.cap.bits →
        exec .encode s = .next (answered (codesOf s.ct s.ibuf).length
          { s with bits := s.bits ++ codesOf s.ct s.ibuf, ibuf := [] })) ∧
      (s.cap.bits < s.bits.length + (codesOf s.ct s.ibuf).length →
        exec .encode s = .next (faulted 4 s.bits.length s))) ∧
    (∀ (pre post : Bytes) (a : Byte), s.ibuf = pre ++ a :: post → covered pre s.ct → codeOf s.ct a = none →
      exec .encode s = .next (faulted 3 pre.length s))

/-- R180, R181: `DECODE` of a concatenation of codes of a prefix code, with room and without. -/
def Obligations.DecodeAppendsSymbols : Prop :=
  decode 0x3300#16 = some .decode ∧
  ∀ (s : State) (b : Bytes), s.err = 0#8 → CodeTable.wf s.ct = true → prefixFree s.ct = true →
    covered b s.ct → s.bits = codesOf s.ct b →
    (s.obuf.length + b.length ≤ s.cap.obuf →
      exec .decode s = .next (answered b.length { s with obuf := s.obuf ++ b, bits := [] })) ∧
    (s.cap.obuf < s.obuf.length + b.length → exec .decode s = .next (faulted 4 s.obuf.length s))

/-- R184, R185, R211: where `DECODE` faults. A table that is no prefix code is `TableError` (6) whatever `BITS` and
the room in `OBUF`; a stream in which, after the codes of `b`, no code is a prefix of what follows is `DecodeError` (2)
at that index, whatever the room. -/
def Obligations.DecodeRefusesBadTableOrStream : Prop :=
  ∀ s : State, s.err = 0#8 →
    (prefixFree s.ct = false → exec .decode s = .next (faulted 6 0 s)) ∧
    (CodeTable.wf s.ct = true → prefixFree s.ct = true →
      ∀ (b : Bytes) (rest : Bits), covered b s.ct → s.bits = codesOf s.ct b ++ rest → rest ≠ [] →
        (∀ a c, codeOf s.ct a = some c → ¬c <+: rest) →
        exec .decode s = .next (faulted 2 (codesOf s.ct b).length s))

/-! ## The pure functions and their laws -/

/-- R52: bit `8j + k` of the sequence is bit `7 − k` of byte `j`, and the conversions are inverse to each other. -/
def Obligations.BitOrderIsMsbFirst : Prop :=
  (∀ (b : Bytes) (j k : Nat) (v : Byte), k < 8 → b[j]? = some v →
    (bitsOfBytes b)[8 * j + k]? = some (v.getLsbD (7 - k))) ∧
  (∀ b : Bytes, (bitsOfBytes b).length = 8 * b.length ∧ bytesOfBits (bitsOfBytes b) = b) ∧
  ∀ s : Bits, s.length % 8 = 0 → bitsOfBytes (bytesOfBits s) = s

/-- R85: `ceil8(L)` bytes, zero-padded; the code comes back whatever the pad bits hold. R85 speaks of codes of 1 to 255
bits and of `ceil8(L)` bytes alone; on every other length and every other `k`, `l` the clauses state the model's own
formula (DESIGN CHOICE, log entry 19). -/
def Obligations.UnpackCodeOfPackCode : Prop :=
  (∀ c : Code, (packCode c).length = ceil8 c.length ∧
    bitsOfBytes (packCode c) = c ++ List.replicate ((8 - c.length % 8) % 8) false ∧
    unpackCode (packCode c) c.length = c) ∧
  (∀ (k : Bytes) (l : Nat), unpackCode k l = (bitsOfBytes k).take l) ∧
  packCode [false] = [0x00#8] ∧ packCode [true, false] = [0x80#8] ∧ packCode [true, true, true, false] = [0xE0#8] ∧
  packCode [true, false, true, true, false, false, true, true, true] = [0xB3#8, 0x80#8] ∧
  unpackCode [0xFF#8] 1 = [true]

/-- R151, R152, R83: the payload of `n` bits, bit by bit. -/
def Obligations.PackBitByBit : Prop :=
  ∀ s : Bits, (pack s).length = s.length / 8 + 2 ∧
    (pack s)[0]? = some (BitVec.ofNat 8 (8 - s.length % 8)) ∧
    ∀ j k : Nat, j ≤ s.length / 8 → k < 8 → ∃ v : Byte, (pack s)[1 + j]? = some v ∧
      v.getLsbD (7 - k) = s.getD (8 * j + k) false

/-- R159: `unpack(pack(s)) = s` for every bit sequence. -/
def Obligations.UnpackOfPack : Prop :=
  ∀ s : Bits, unpack (pack s) = .ok s

/-- R160: the converse holds exactly when the stripped bits are all 0; `pack` is injective, `unpack` is not. -/
def Obligations.PackOfUnpack : Prop :=
  (∀ (p : Byte) (y : Bytes) (s : Bits), unpack (p :: y) = .ok s →
    (pack s = p :: y ↔ ∀ b ∈ (bitsOfBytes y).drop (8 * y.length - p.toNat), b = false)) ∧
  (∀ s s' : Bits, pack s = pack s' → s = s') ∧
  unpack [0x08#8, 0x00#8] = .ok [] ∧ unpack [0x08#8, 0xFF#8] = .ok []

/-- R172 (g): input may be fed in pieces. -/
def Obligations.EncodeInPieces : Prop :=
  ∀ (t : CodeTable) (x z : Bytes) (r q : Bits), encodeBytes x t = .ok r →
    (encodeBytes (x ++ z) t = .ok (r ++ q) ↔ encodeBytes z t = .ok q)

/-- R183 on the lookup function: no code is a prefix of another symbol's. -/
def Obligations.PrefixFreeIsPairwise : Prop :=
  ∀ t : CodeTable, CodeTable.canonical t = true →
    (prefixFree t = true ↔
      ∀ (a b : Byte) (c d : Code), a ≠ b → codeOf t a = some c → codeOf t b = some d → ¬c <+: d)

/-- R182: in a prefix code at most one symbol's code is a prefix of a given sequence. -/
def Obligations.MatchIsUnique : Prop :=
  ∀ (t : CodeTable) (u : Bits) (a b : Byte) (c d : Code),
    CodeTable.canonical t = true → prefixFree t = true → codeOf t a = some c → codeOf t b = some d →
    c <+: u → d <+: u → a = b

/-- R173: decoding what was encoded with a prefix code gives the input back. -/
def Obligations.DecodeOfEncodedBytes : Prop :=
  ∀ (t : CodeTable) (b : Bytes), CodeTable.wf t = true → prefixFree t = true → covered b t →
    ∃ s, encodeBytes b t = .ok s ∧ decodeBits s t = .ok b

/-- R190: with R173, `decode` and `encode` are inverse to each other. -/
def Obligations.EncodeOfDecodedBits : Prop :=
  ∀ (t : CodeTable) (s : Bits) (b : Bytes), CodeTable.wf t = true → prefixFree t = true →
    (decodeBits s t = .ok b ↔ covered b t ∧ encodeBytes b t = .ok s)

/-- R185 with R181: `decode` fails exactly where, after a run of whole codes, bits remain of which no code is a
prefix; it reports `DecodeError` at the first bit of that code. -/
def Obligations.DecodeFailsAtUnmatchedCode : Prop :=
  ∀ (t : CodeTable) (s : Bits) (f : Failure), CodeTable.wf t = true → prefixFree t = true →
    (decodeBits s t = .error f ↔
      f.kind = .decodeError ∧ f.info < s.length ∧
      (∃ b, covered b t ∧ encodeBytes b t = .ok (s.take f.info)) ∧
      ∀ a c, codeOf t a = some c → ¬c <+: s.drop f.info)

/-- R188: the bit-serial matcher computes the same function, the failures and their positions included. -/
def Obligations.SerialDecoderIsDecoder : Prop :=
  ∀ (t : CodeTable) (s : Bits), CodeTable.wf t = true → prefixFree t = true → decodeSerial s t = decodeBits s t

/-! ## Command sequences of the spec: R81, R234, R236, R237 -/

/-- R81: an operand form of the assembler never gives an illegal word; `.word` alone can. -/
def Obligations.OnlyDotWordIsIllegal : Prop :=
  ∀ (line : List Char) (item : AsmItem) (w : CommandWord),
    assembleLine line = some (some item) → w ∈ item.expand → decode w = none → ∃ v, item = .word v

/-- R81, R234: the pseudo-instruction `SETCODE` stores exactly the code written, whatever `BITS` held. -/
def Obligations.SetcodeStoresExactCode : Prop :=
  ∀ (s : State) (a : Byte) (c : Bits), s.err = 0#8 → 1 ≤ c.length → c.length ≤ 255 → c.length ≤ s.cap.bits →
    s.requests = (AsmItem.setcode a c).expand.map HostAction.command →
    ∃ ct : CodeTable, (∀ x, codeOf ct x = if x = a then some c else codeOf s.ct x) ∧
      core.run (c.length + 2) s = .next (answered c.length { s with ct := ct, bits := [], requests := [] })

/-- R236 and R237: from the same data `ENCODE`, `STTBL`, `PACK` leave the Frame in `OBUF`, and on a unit that holds
that Frame in `IBUF`, `LDTBL`, `UNPACK`, `DECODE` leave the original bytes in `OBUF` and the original table in `CT`. -/
def Obligations.FrameRoundTrip : Prop :=
  ∀ (s u : State) (b : Bytes) (r : Bits) (y : Bytes),
    s.err = 0#8 → s.ibuf = b → s.obuf = [] → s.bits = [] → CodeTable.wf s.ct = true → 1 ≤ tcnt s.ct →
    prefixFree s.ct = true → covered b s.ct → r = codesOf s.ct b → y = frame s.ct r →
    r.length ≤ s.cap.bits → y.length ≤ s.cap.obuf →
    u.err = 0#8 → u.ibuf = y → u.obuf = [] → u.bits = [] → r.length ≤ u.cap.bits → b.length ≤ u.cap.obuf →
    (∃ s1 s2 s3, exec .encode s = .next s1 ∧ exec .sttbl s1 = .next s2 ∧ exec .pack s2 = .next s3 ∧
      s3.err = 0#8 ∧ s3.obuf = y ∧ s3.ibuf = [] ∧ s3.bits = []) ∧
    (∃ u1 u2 u3, exec .ldtbl u = .next u1 ∧ exec .unpack u1 = .next u2 ∧ exec .decode u2 = .next u3 ∧
      u3.err = 0#8 ∧ u3.obuf = b ∧ u3.ct = s.ct ∧ u3.ibuf = [] ∧ u3.bits = [])

/-- R236 and R237 as the host sends them, each from the reset state with everything pending: the compression sequence
ends READY with the Frame in `OBUF`, the decompression sequence on that Frame ends READY with the original bytes there.
The conditions are P1, P3, P4, P5 of R239. The queue is log entry 2. -/
def Obligations.PipelinesFromReset : Prop :=
  ∀ (c : Capacities) (t : CodeTable) (b : Bytes) (r : Bits) (y : Bytes),
    CodeTable.wf t = true → 1 ≤ tcnt t → prefixFree t = true → covered b t → r = codesOf t b → y = frame t r →
    (∀ a code, codeOf t a = some code → code.length ≤ c.bits) → r.length ≤ c.bits →
    b.length ≤ c.ibuf → y.length ≤ c.ibuf → b.length ≤ c.obuf → y.length ≤ c.obuf →
    core.run (actionsOf (compressionSequence t b)).length
        { State.resetAt c with requests := actionsOf (compressionSequence t b) } =
      .next (answered (padCount r.length)
        { State.resetAt c with obuf := y, ct := t, pad := BitVec.ofNat 4 (padCount r.length) }) ∧
    core.run (actionsOf (decompressionSequence y)).length
        { State.resetAt c with requests := actionsOf (decompressionSequence y) } =
      .next (answered b.length { State.resetAt c with obuf := b, ct := t, pad := BitVec.ofNat 4 (padCount r.length) })

/-- R234 and R237 with P1, P3, P4 of R239: from a clean start with room the entries of a table, sent one by one, load
that table, and the bytes of a block followed by `LDTBL` load the block's table; P4 of such a sequence says that this
table is a prefix code. The queue is log entry 2, the sorted form of the table 13, what a sequence loads 20. -/
def Obligations.SequencesLoadTheirTable : Prop :=
  (∀ (s : State) (t : CodeTable), s.cleanStart → CodeTable.wf t = true →
    (∀ a code, codeOf t a = some code → s.room 0 0 code.length) →
    s.loads (actionsOf (tableSequence t)) t ∧
    (s.loadsPrefixCode (actionsOf (tableSequence t)) ↔ prefixFree t = true)) ∧
  ∀ (s : State) (y : Bytes) (t : CodeTable) (n : Nat), s.cleanStart → deserialize y = .ok (t, n) →
    s.room y.length 0 0 →
    s.loads (actionsOf [.bytes y, .command .ldtbl]) t ∧
    (s.loadsPrefixCode (actionsOf [.bytes y, .command .ldtbl]) ↔ prefixFree t = true)
end

