-- ==== Sys2Proof/Laws/BitOrder.lean ====
section
/-! SUPPORT. The MSB-first conversions: lengths, bit positions, and that they are inverse (spec R12, R52). -/

namespace Sys2Proof.Machine

@[simp] theorem zeros_length (k : Nat) : (zeros k).length = k := by simp [zeros]

theorem isPrefix_iff (a s : Bits) : isPrefix a s = true ↔ a <+: s := by simp [isPrefix]

@[simp] theorem bitsOfByte_length (b : Byte) : (bitsOfByte b).length = 8 := rfl

@[simp] theorem bitsOfBytes_nil : bitsOfBytes [] = [] := rfl

@[simp] theorem bitsOfBytes_cons (v : Byte) (b : Bytes) : bitsOfBytes (v :: b) = bitsOfByte v ++ bitsOfBytes b := by
  simp [bitsOfBytes]

theorem bitsOfBytes_append (a b : Bytes) : bitsOfBytes (a ++ b) = bitsOfBytes a ++ bitsOfBytes b := by
  simp [bitsOfBytes]

@[simp] theorem bitsOfBytes_length (b : Bytes) : (bitsOfBytes b).length = 8 * b.length := by
  induction b with
  | nil => rfl
  | cons v b ih => simp [ih]; omega

theorem bitsOfByte_byteOfBits :
    ∀ s0 s1 s2 s3 s4 s5 s6 s7 : Bool,
      bitsOfByte (byteOfBits s0 s1 s2 s3 s4 s5 s6 s7) = [s0, s1, s2, s3, s4, s5, s6, s7] := by decide

theorem byteOfBits_bitsOfByte :
    ∀ v : Byte, byteOfBits (v.getLsbD 7) (v.getLsbD 6) (v.getLsbD 5) (v.getLsbD 4)
      (v.getLsbD 3) (v.getLsbD 2) (v.getLsbD 1) (v.getLsbD 0) = v := by decide

@[simp] theorem bytesOfBits_bitsOfByte_append (v : Byte) (s : Bits) :
    bytesOfBits (bitsOfByte v ++ s) = v :: bytesOfBits s :=
  congrArg (· :: bytesOfBits s) (byteOfBits_bitsOfByte v)

theorem bytesOfBits_bitsOfBytes_append (b : Bytes) (s : Bits) :
    bytesOfBits (bitsOfBytes b ++ s) = b ++ bytesOfBits s := by
  induction b with
  | nil => rfl
  | cons v b ih => simp [ih]

/-- A sequence whose length is a multiple of 8 is the opening of some bytes. -/
theorem exists_bytes_of_length_mod (s : Bits) (h : s.length % 8 = 0) : ∃ b : Bytes, s = bitsOfBytes b := by
  induction hn : s.length / 8 generalizing s with
  | zero =>
    have : s.length = 0 := by omega
    exact ⟨[], by simpa using this⟩
  | succ n ih =>
    match s, hn, h with
    | s0 :: s1 :: s2 :: s3 :: s4 :: s5 :: s6 :: s7 :: rest, hn, h =>
      obtain ⟨b, rfl⟩ := ih rest (by simp at h; omega) (by simp at hn; omega)
      exact ⟨byteOfBits s0 s1 s2 s3 s4 s5 s6 s7 :: b, by simp [bitsOfByte_byteOfBits]⟩
    | [], hn, _ | [_], hn, _ | [_, _], hn, _ | [_, _, _], hn, _ | [_, _, _, _], hn, _
    | [_, _, _, _, _], hn, _ | [_, _, _, _, _, _], hn, _ | [_, _, _, _, _, _, _], hn, _ => simp at hn

theorem bytesOfBits_length (s : Bits) (h : s.length % 8 = 0) : (bytesOfBits s).length = s.length / 8 := by
  obtain ⟨b, rfl⟩ := exists_bytes_of_length_mod s h
  have := bytesOfBits_bitsOfBytes_append b []
  simp only [List.append_nil] at this
  rw [this]
  simp [bytesOfBits]

theorem bitsOfByte_getElem? (v : Byte) (k : Nat) (h : k < 8) : (bitsOfByte v)[k]? = some (v.getLsbD (7 - k)) := by
  match k, h with
  | 0, _ | 1, _ | 2, _ | 3, _ | 4, _ | 5, _ | 6, _ | 7, _ => rfl

end Sys2Proof.Machine
end

