-- ==== Sys2Proof/Laws/CodeTable.lean ====
section
/-! SUPPORT. The code table as a mapping, and that writing an entry keeps its canonical form (spec R25, R26, R130). -/

namespace Sys2Proof.Machine

@[simp] theorem codeOf_nil (s : Byte) : codeOf [] s = none := rfl

@[simp] theorem tcnt_nil : tcnt [] = 0 := rfl

theorem codeOf_cons (e : Byte × Code) (t : CodeTable) (s : Byte) :
    codeOf (e :: t) s = if e.1 = s then some e.2 else codeOf t s := rfl

theorem mem_of_codeOf {t : CodeTable} {s : Byte} {c : Code} (h : codeOf t s = some c) : (s, c) ∈ t := by
  induction t with
  | nil => simp at h
  | cons e t ih =>
    rw [codeOf_cons] at h
    split at h
    · next he => obtain ⟨rfl⟩ := he; simp at h; simp [← h]
    · exact List.mem_cons_of_mem _ (ih h)

theorem canonical_cons (e : Byte × Code) (t : CodeTable) :
    CodeTable.canonical (e :: t) = true ↔ (∀ f ∈ t, e.1.toNat < f.1.toNat) ∧ CodeTable.canonical t = true := by
  simp [CodeTable.canonical]

/-- In canonical form an entry is listed exactly when the lookup gives it. -/
theorem codeOf_eq_some_iff {t : CodeTable} (h : CodeTable.canonical t = true) (s : Byte) (c : Code) :
    codeOf t s = some c ↔ (s, c) ∈ t := by
  refine ⟨mem_of_codeOf, fun hm => ?_⟩
  induction t with
  | nil => simp at hm
  | cons e t ih =>
    obtain ⟨hlt, hc⟩ := (canonical_cons e t).1 h
    rw [codeOf_cons]
    rcases List.mem_cons.1 hm with rfl | hm
    · simp
    · have := hlt _ hm
      rw [if_neg (fun he => by simp [he] at this), ih hc hm]

theorem putCode_cons (e : Byte × Code) (t : CodeTable) (s : Byte) (c : Code) :
    putCode (e :: t) s c =
      if e.1 = s then (s, c) :: t else if s.toNat < e.1.toNat then (s, c) :: e :: t else e :: putCode t s c := rfl

/-- R130: after a write the symbol has the new code and every other symbol the code it had. -/
theorem codeOf_putCode (t : CodeTable) (s : Byte) (c : Code) (x : Byte) :
    codeOf (putCode t s c) x = if x = s then some c else codeOf t x := by
  induction t with
  | nil => exact if_congr eq_comm rfl rfl
  | cons e t ih =>
    rw [putCode_cons]
    by_cases he : e.1 = s
    · by_cases h : x = s
      · simp [he, h, codeOf_cons]
      · simp [he, codeOf_cons, h, Ne.symm h]
    · by_cases hx : x = s
      · subst hx
        by_cases hlt : x.toNat < e.1.toNat <;> simp [he, hlt, codeOf_cons, ih]
      · by_cases hlt : s.toNat < e.1.toNat <;> simp [he, hx, hlt, codeOf_cons, ih, Ne.symm hx]

theorem mem_putCode {t : CodeTable} {s : Byte} {c : Code} {e : Byte × Code} (h : e ∈ putCode t s c) :
    e = (s, c) ∨ e ∈ t := by
  induction t with
  | nil => left; simpa [putCode] using h
  | cons f t ih =>
    rw [putCode_cons] at h
    split at h
    · rcases List.mem_cons.1 h with h | h
      · exact .inl h
      · exact .inr (List.mem_cons_of_mem _ h)
    · split at h
      · rcases List.mem_cons.1 h with h | h
        · exact .inl h
        · exact .inr h
      · rcases List.mem_cons.1 h with h | h
        · exact .inr (by simp [h])
        · exact (ih h).imp_right (List.mem_cons_of_mem _)

theorem canonical_putCode {t : CodeTable} (h : CodeTable.canonical t = true) (s : Byte) (c : Code) :
    CodeTable.canonical (putCode t s c) = true := by
  induction t with
  | nil => rfl
  | cons e t ih =>
    obtain ⟨hlt, hc⟩ := (canonical_cons e t).1 h
    rw [putCode_cons]
    split
    · next he => subst he; exact (canonical_cons _ _).2 ⟨hlt, hc⟩
    · next he =>
      split
      · next hs =>
        refine (canonical_cons _ _).2 ⟨fun f hf => ?_, h⟩
        rcases List.mem_cons.1 hf with rfl | hf
        · exact hs
        · exact Nat.lt_trans hs (hlt f hf)
      · next hs =>
        refine (canonical_cons _ _).2 ⟨fun f hf => ?_, ih hc⟩
        rcases mem_putCode hf with rfl | hf
        · have : s.toNat ≠ e.1.toNat := fun hn => he (BitVec.eq_of_toNat_eq hn.symm)
          simp only at this ⊢
          omega
        · exact hlt f hf

theorem codesOk_iff (t : CodeTable) :
    CodeTable.codesOk t = true ↔ ∀ e ∈ t, 1 ≤ e.2.length ∧ e.2.length ≤ 255 := by
  simp [CodeTable.codesOk]

theorem wf_iff (t : CodeTable) :
    CodeTable.wf t = true ↔ CodeTable.canonical t = true ∧ ∀ e ∈ t, 1 ≤ e.2.length ∧ e.2.length ≤ 255 := by
  simp [CodeTable.wf, codesOk_iff]

/-- A write of a code of 1 to 255 bits keeps the table's form. -/
theorem wf_putCode {t : CodeTable} (h : CodeTable.wf t = true) (s : Byte) (c : Code)
    (h1 : 1 ≤ c.length) (h2 : c.length ≤ 255) : CodeTable.wf (putCode t s c) = true := by
  obtain ⟨hc, hl⟩ := (wf_iff t).1 h
  refine (wf_iff _).2 ⟨canonical_putCode hc s c, fun e he => ?_⟩
  rcases mem_putCode he with rfl | he
  · exact ⟨h1, h2⟩
  · exact hl e he

theorem codeOf_length {t : CodeTable} (h : CodeTable.wf t = true) {s : Byte} {c : Code} (hc : codeOf t s = some c) :
    1 ≤ c.length ∧ c.length ≤ 255 :=
  ((wf_iff t).1 h).2 _ (mem_of_codeOf hc)

/-- R183 over the listed entries. -/
theorem prefixFree_iff (t : CodeTable) :
    prefixFree t = true ↔ ∀ e ∈ t, ∀ f ∈ t, e.1 ≠ f.1 → ¬e.2 <+: f.2 := by
  simp only [prefixFree, List.all_eq_true, Bool.or_eq_true, decide_eq_true_eq, Bool.not_eq_true',
    ← Bool.not_eq_true, isPrefix_iff]
  exact forall₂_congr fun e _ => forall₂_congr fun f _ => by tauto

end Sys2Proof.Machine
end

