-- ==== Sys2Proof/Laws/State.lean ====
section
/-! SUPPORT. One lemma per field of State and per shared update, so that no later proof unfolds a record update. -/

namespace Sys2Proof.Machine

@[simp] theorem respond_ibuf (d : Data) (s : State) : (respond d s).ibuf = s.ibuf := rfl
@[simp] theorem respond_obuf (d : Data) (s : State) : (respond d s).obuf = s.obuf := rfl
@[simp] theorem respond_bits (d : Data) (s : State) : (respond d s).bits = s.bits := rfl
@[simp] theorem respond_ct (d : Data) (s : State) : (respond d s).ct = s.ct := rfl
@[simp] theorem respond_err (d : Data) (s : State) : (respond d s).err = s.err := rfl
@[simp] theorem respond_errinfo (d : Data) (s : State) : (respond d s).errinfo = s.errinfo := rfl
@[simp] theorem respond_pad (d : Data) (s : State) : (respond d s).pad = s.pad := rfl
@[simp] theorem respond_cap (d : Data) (s : State) : (respond d s).cap = s.cap := rfl
@[simp] theorem respond_requests (d : Data) (s : State) : (respond d s).requests = s.requests := rfl
@[simp] theorem respond_rsp (d : Data) (s : State) : (respond d s).rsp = some ⟨s.err, d⟩ := rfl

@[simp] theorem raise_ibuf (f : FaultKind) (n : Nat) (s : State) : (raise f n s).ibuf = s.ibuf := rfl
@[simp] theorem raise_obuf (f : FaultKind) (n : Nat) (s : State) : (raise f n s).obuf = s.obuf := rfl
@[simp] theorem raise_bits (f : FaultKind) (n : Nat) (s : State) : (raise f n s).bits = s.bits := rfl
@[simp] theorem raise_ct (f : FaultKind) (n : Nat) (s : State) : (raise f n s).ct = s.ct := rfl
@[simp] theorem raise_err (f : FaultKind) (n : Nat) (s : State) : (raise f n s).err = f.code := rfl
@[simp] theorem raise_errinfo (f : FaultKind) (n : Nat) (s : State) : (raise f n s).errinfo = zext32 n := rfl
@[simp] theorem raise_pad (f : FaultKind) (n : Nat) (s : State) : (raise f n s).pad = s.pad := rfl
@[simp] theorem raise_cap (f : FaultKind) (n : Nat) (s : State) : (raise f n s).cap = s.cap := rfl
@[simp] theorem raise_requests (f : FaultKind) (n : Nat) (s : State) : (raise f n s).requests = s.requests := rfl
@[simp] theorem raise_rsp (f : FaultKind) (n : Nat) (s : State) : (raise f n s).rsp = some ⟨f.code, zext32 n⟩ := rfl

@[simp] theorem answerFaulted_ibuf (s : State) : (answerFaulted s).ibuf = s.ibuf := rfl
@[simp] theorem answerFaulted_obuf (s : State) : (answerFaulted s).obuf = s.obuf := rfl
@[simp] theorem answerFaulted_bits (s : State) : (answerFaulted s).bits = s.bits := rfl
@[simp] theorem answerFaulted_ct (s : State) : (answerFaulted s).ct = s.ct := rfl
@[simp] theorem answerFaulted_err (s : State) : (answerFaulted s).err = s.err := rfl
@[simp] theorem answerFaulted_errinfo (s : State) : (answerFaulted s).errinfo = s.errinfo := rfl
@[simp] theorem answerFaulted_pad (s : State) : (answerFaulted s).pad = s.pad := rfl
@[simp] theorem answerFaulted_cap (s : State) : (answerFaulted s).cap = s.cap := rfl
@[simp] theorem answerFaulted_requests (s : State) : (answerFaulted s).requests = s.requests := rfl
@[simp] theorem answerFaulted_rsp (s : State) : (answerFaulted s).rsp = some ⟨s.err, s.errinfo⟩ := rfl

@[simp] theorem toReset_ibuf (s : State) : (toReset s).ibuf = [] := rfl
@[simp] theorem toReset_obuf (s : State) : (toReset s).obuf = [] := rfl
@[simp] theorem toReset_bits (s : State) : (toReset s).bits = [] := rfl
@[simp] theorem toReset_ct (s : State) : (toReset s).ct = [] := rfl
@[simp] theorem toReset_err (s : State) : (toReset s).err = 0#8 := rfl
@[simp] theorem toReset_errinfo (s : State) : (toReset s).errinfo = 0#32 := rfl
@[simp] theorem toReset_pad (s : State) : (toReset s).pad = 0#4 := rfl
@[simp] theorem toReset_cap (s : State) : (toReset s).cap = s.cap := rfl
@[simp] theorem toReset_requests (s : State) : (toReset s).requests = s.requests := rfl
@[simp] theorem toReset_rsp (s : State) : (toReset s).rsp = s.rsp := rfl

@[simp] theorem hardReset_ibuf (s : State) : (hardReset s).ibuf = [] := rfl
@[simp] theorem hardReset_obuf (s : State) : (hardReset s).obuf = [] := rfl
@[simp] theorem hardReset_bits (s : State) : (hardReset s).bits = [] := rfl
@[simp] theorem hardReset_ct (s : State) : (hardReset s).ct = [] := rfl
@[simp] theorem hardReset_err (s : State) : (hardReset s).err = 0#8 := rfl
@[simp] theorem hardReset_errinfo (s : State) : (hardReset s).errinfo = 0#32 := rfl
@[simp] theorem hardReset_pad (s : State) : (hardReset s).pad = 0#4 := rfl
@[simp] theorem hardReset_cap (s : State) : (hardReset s).cap = s.cap := rfl
@[simp] theorem hardReset_requests (s : State) : (hardReset s).requests = s.requests := rfl
@[simp] theorem hardReset_rsp (s : State) : (hardReset s).rsp = none := rfl

@[simp] theorem packDone_ibuf (p : Nat) (s : State) : (packDone p s).ibuf = s.ibuf := rfl
@[simp] theorem packDone_obuf (p : Nat) (s : State) : (packDone p s).obuf = s.obuf := rfl
@[simp] theorem packDone_bits (p : Nat) (s : State) : (packDone p s).bits = [] := rfl
@[simp] theorem packDone_ct (p : Nat) (s : State) : (packDone p s).ct = s.ct := rfl
@[simp] theorem packDone_err (p : Nat) (s : State) : (packDone p s).err = s.err := rfl
@[simp] theorem packDone_errinfo (p : Nat) (s : State) : (packDone p s).errinfo = s.errinfo := rfl
@[simp] theorem packDone_pad (p : Nat) (s : State) : (packDone p s).pad = BitVec.ofNat 4 p := rfl
@[simp] theorem packDone_cap (p : Nat) (s : State) : (packDone p s).cap = s.cap := rfl
@[simp] theorem packDone_requests (p : Nat) (s : State) : (packDone p s).requests = s.requests := rfl
@[simp] theorem packDone_rsp (p : Nat) (s : State) : (packDone p s).rsp = some ⟨s.err, zext32 p⟩ := rfl

@[simp] theorem unpackDone_ibuf (p : Nat) (s : State) : (unpackDone p s).ibuf = [] := rfl
@[simp] theorem unpackDone_obuf (p : Nat) (s : State) : (unpackDone p s).obuf = s.obuf := rfl
@[simp] theorem unpackDone_bits (p : Nat) (s : State) : (unpackDone p s).bits = s.bits := rfl
@[simp] theorem unpackDone_ct (p : Nat) (s : State) : (unpackDone p s).ct = s.ct := rfl
@[simp] theorem unpackDone_err (p : Nat) (s : State) : (unpackDone p s).err = s.err := rfl
@[simp] theorem unpackDone_errinfo (p : Nat) (s : State) : (unpackDone p s).errinfo = s.errinfo := rfl
@[simp] theorem unpackDone_pad (p : Nat) (s : State) : (unpackDone p s).pad = BitVec.ofNat 4 p := rfl
@[simp] theorem unpackDone_cap (p : Nat) (s : State) : (unpackDone p s).cap = s.cap := rfl
@[simp] theorem unpackDone_requests (p : Nat) (s : State) : (unpackDone p s).requests = s.requests := rfl
@[simp] theorem unpackDone_rsp (p : Nat) (s : State) : (unpackDone p s).rsp = some ⟨s.err, zext32 p⟩ := rfl

@[simp] theorem encodeDone_ibuf (n : Nat) (s : State) : (encodeDone n s).ibuf = [] := rfl
@[simp] theorem encodeDone_obuf (n : Nat) (s : State) : (encodeDone n s).obuf = s.obuf := rfl
@[simp] theorem encodeDone_bits (n : Nat) (s : State) : (encodeDone n s).bits = s.bits := rfl
@[simp] theorem encodeDone_ct (n : Nat) (s : State) : (encodeDone n s).ct = s.ct := rfl
@[simp] theorem encodeDone_err (n : Nat) (s : State) : (encodeDone n s).err = s.err := rfl
@[simp] theorem encodeDone_errinfo (n : Nat) (s : State) : (encodeDone n s).errinfo = s.errinfo := rfl
@[simp] theorem encodeDone_pad (n : Nat) (s : State) : (encodeDone n s).pad = s.pad := rfl
@[simp] theorem encodeDone_cap (n : Nat) (s : State) : (encodeDone n s).cap = s.cap := rfl
@[simp] theorem encodeDone_requests (n : Nat) (s : State) : (encodeDone n s).requests = s.requests := rfl
@[simp] theorem encodeDone_rsp (n : Nat) (s : State) : (encodeDone n s).rsp = some ⟨s.err, zext32 n⟩ := rfl

@[simp] theorem decodeDone_ibuf (n : Nat) (s : State) : (decodeDone n s).ibuf = s.ibuf := rfl
@[simp] theorem decodeDone_obuf (n : Nat) (s : State) : (decodeDone n s).obuf = s.obuf := rfl
@[simp] theorem decodeDone_bits (n : Nat) (s : State) : (decodeDone n s).bits = [] := rfl
@[simp] theorem decodeDone_ct (n : Nat) (s : State) : (decodeDone n s).ct = s.ct := rfl
@[simp] theorem decodeDone_err (n : Nat) (s : State) : (decodeDone n s).err = s.err := rfl
@[simp] theorem decodeDone_errinfo (n : Nat) (s : State) : (decodeDone n s).errinfo = s.errinfo := rfl
@[simp] theorem decodeDone_pad (n : Nat) (s : State) : (decodeDone n s).pad = s.pad := rfl
@[simp] theorem decodeDone_cap (n : Nat) (s : State) : (decodeDone n s).cap = s.cap := rfl
@[simp] theorem decodeDone_requests (n : Nat) (s : State) : (decodeDone n s).requests = s.requests := rfl
@[simp] theorem decodeDone_rsp (n : Nat) (s : State) : (decodeDone n s).rsp = some ⟨s.err, zext32 n⟩ := rfl

@[simp] theorem resetAt_ibuf (c : Capacities) : (State.resetAt c).ibuf = [] := rfl
@[simp] theorem resetAt_obuf (c : Capacities) : (State.resetAt c).obuf = [] := rfl
@[simp] theorem resetAt_bits (c : Capacities) : (State.resetAt c).bits = [] := rfl
@[simp] theorem resetAt_ct (c : Capacities) : (State.resetAt c).ct = [] := rfl
@[simp] theorem resetAt_err (c : Capacities) : (State.resetAt c).err = 0#8 := rfl
@[simp] theorem resetAt_errinfo (c : Capacities) : (State.resetAt c).errinfo = 0#32 := rfl
@[simp] theorem resetAt_pad (c : Capacities) : (State.resetAt c).pad = 0#4 := rfl
@[simp] theorem resetAt_cap (c : Capacities) : (State.resetAt c).cap = c := rfl
@[simp] theorem resetAt_requests (c : Capacities) : (State.resetAt c).requests = [] := rfl
@[simp] theorem resetAt_rsp (c : Capacities) : (State.resetAt c).rsp = none := rfl

end Sys2Proof.Machine
end

