-- ==== Sys2Proof/Laws/Ops.lean ====
section
/-! SUPPORT. What each shared operation can do, said once; later proofs cite these and do not unfold it. -/

namespace Sys2Proof.Machine

/-- Every command that goes through `whenReady` answers a next state (R73). -/
theorem whenReady_of_ready {s : State} (h : s.err = 0#8) (body : State → State) : whenReady s body = .next (body s) :=
  congrArg _ (if_pos h)

theorem whenReady_of_faulted {s : State} (h : s.err ≠ 0#8) (body : State → State) :
    whenReady s body = .next (answerFaulted s) :=
  congrArg _ (if_neg h)

/-- All that `whenReady` can answer. -/
theorem whenReady_eq_next {s t : State} {body : State → State} (h : whenReady s body = .next t) :
    (s.err = 0#8 ∧ t = body s) ∨ (s.err ≠ 0#8 ∧ t = answerFaulted s) := by
  by_cases hs : s.err = 0#8
  · rw [whenReady_of_ready hs] at h; cases h; exact .inl ⟨hs, rfl⟩
  · rw [whenReady_of_faulted hs] at h; cases h; exact .inr ⟨hs, rfl⟩

theorem appendObuf_of_fits {s : State} {y : Bytes} (h : s.obuf.length + y.length ≤ s.cap.obuf) (k : State → State) :
    appendObuf y k s = k { s with obuf := s.obuf ++ y } := by
  simp [appendObuf, Nat.not_lt.2 h]

theorem appendObuf_of_overflow {s : State} {y : Bytes} (h : s.cap.obuf < s.obuf.length + y.length) (k : State → State) :
    appendObuf y k s = raise .bufferError s.obuf.length s := by
  simp [appendObuf, h]

theorem appendBits_of_fits {s : State} {r : Bits} (h : s.bits.length + r.length ≤ s.cap.bits) (k : State → State) :
    appendBits r k s = k { s with bits := s.bits ++ r } := by
  simp [appendBits, Nat.not_lt.2 h]

theorem appendBits_of_overflow {s : State} {r : Bits} (h : s.cap.bits < s.bits.length + r.length) (k : State → State) :
    appendBits r k s = raise .bufferError s.bits.length s := by
  simp [appendBits, h]

/-- All that `appendObuf` can give. -/
theorem appendObuf_cases (y : Bytes) (k : State → State) (s : State) :
    (s.obuf.length + y.length ≤ s.cap.obuf ∧ appendObuf y k s = k { s with obuf := s.obuf ++ y }) ∨
    (s.cap.obuf < s.obuf.length + y.length ∧ appendObuf y k s = raise .bufferError s.obuf.length s) := by
  by_cases h : s.obuf.length + y.length ≤ s.cap.obuf
  · exact .inl ⟨h, appendObuf_of_fits h k⟩
  · exact .inr ⟨Nat.lt_of_not_le h, appendObuf_of_overflow (Nat.lt_of_not_le h) k⟩

/-- All that `appendBits` can give. -/
theorem appendBits_cases (r : Bits) (k : State → State) (s : State) :
    (s.bits.length + r.length ≤ s.cap.bits ∧ appendBits r k s = k { s with bits := s.bits ++ r }) ∨
    (s.cap.bits < s.bits.length + r.length ∧ appendBits r k s = raise .bufferError s.bits.length s) := by
  by_cases h : s.bits.length + r.length ≤ s.cap.bits
  · exact .inl ⟨h, appendBits_of_fits h k⟩
  · exact .inr ⟨Nat.lt_of_not_le h, appendBits_of_overflow (Nat.lt_of_not_le h) k⟩

theorem illegalWord_of_ready {s : State} (h : s.err = 0#8) (w : CommandWord) :
    illegalWord w s = raise .illegalCommand w.toNat s :=
  if_pos h

theorem illegalWord_of_faulted {s : State} (h : s.err ≠ 0#8) (w : CommandWord) : illegalWord w s = answerFaulted s :=
  if_neg h

/-- R201: the codes are 1 to 6, so a fault always leaves the unit FAULTED. -/
theorem FaultKind.code_ne_zero (f : FaultKind) : f.code ≠ 0#8 := by cases f <;> decide

theorem FaultKind.code_le_six (f : FaultKind) : f.code.toNat ≤ 6 := by cases f <;> decide

end Sys2Proof.Machine
end

