-- ==== Sys2Proof/Laws/Commands.lean ====
section
/-! SUPPORT. What a command can do, said once: its two ends in READY, its one answer in FAULTED, and what a step does
with the host's next action (spec R73, R207, R208). -/

namespace Sys2Proof.Machine

/-- A command's two ends in READY: it succeeds, with `ERR`, `ERRINFO`, the capacities and the queue as they were, or
it raises one fault and nothing else changes (R207). -/
def endsWell (s t : State) : Prop :=
  (t.err = 0#8 ∧ t.errinfo = s.errinfo ∧ t.cap = s.cap ∧ t.requests = s.requests ∧ ∃ d, t.rsp = some ⟨0#8, d⟩) ∨
  ∃ f info, t = raise f info s

theorem endsWell_respond {s s' : State} (d : Data) (h : s'.err = 0#8) (hi : s'.errinfo = s.errinfo)
    (hc : s'.cap = s.cap) (hq : s'.requests = s.requests) : endsWell s (respond d s') :=
  .inl ⟨by simp [h], by simp [hi], by simp [hc], by simp [hq], d, by simp [h]⟩

theorem endsWell_raise {s : State} (f : FaultKind) (info : Nat) : endsWell s (raise f info s) := .inr ⟨f, info, rfl⟩

/-- R73 step 4: every command but `RESET`, issued in READY, ends in one of those two ways. -/
theorem exec_in_ready (i : Instr) (s : State) (h : s.err = 0#8) (hr : i ≠ .reset) :
    ∃ t, exec i s = .next t ∧ endsWell s t := by
  cases i <;> simp only [exec]
  case reset => exact absurd rfl hr
  case rdreg r => exact ⟨_, rfl, endsWell_respond _ h rfl rfl rfl⟩
  all_goals first
    | (refine ⟨_, whenReady_of_ready h _, ?_⟩)
  case nop => exact endsWell_respond _ h rfl rfl rfl
  case pushi => split; exacts [endsWell_raise _ _, endsWell_respond _ h rfl rfl rfl]
  case pushb =>
    split
    · rw [illegalWord_of_ready h]; exact endsWell_raise _ _
    · split; exacts [endsWell_raise _ _, endsWell_respond _ h rfl rfl rfl]
  case popo => split; exacts [endsWell_raise _ _, endsWell_respond _ h rfl rfl rfl]
  case popb => split; exacts [endsWell_raise _ _, endsWell_respond _ h rfl rfl rfl]
  case tblset => split; exacts [endsWell_raise _ _, endsWell_respond _ h rfl rfl rfl]
  case tblget =>
    split
    · exact endsWell_respond _ h rfl rfl rfl
    · rcases appendBits_cases _ _ s with ⟨_, e⟩ | ⟨_, e⟩ <;> rw [e]
      exacts [endsWell_respond _ h rfl rfl rfl, endsWell_raise _ _]
  case ldtbl => split; exacts [endsWell_raise _ _, endsWell_respond _ h rfl rfl rfl]
  case sttbl =>
    split
    · exact endsWell_raise _ _
    · rcases appendObuf_cases _ _ s with ⟨_, e⟩ | ⟨_, e⟩ <;> rw [e]
      exacts [endsWell_respond _ h rfl rfl rfl, endsWell_raise _ _]
  case pack =>
    rcases appendObuf_cases _ _ s with ⟨_, e⟩ | ⟨_, e⟩ <;> rw [e]
    exacts [endsWell_respond _ h rfl rfl rfl, endsWell_raise _ _]
  case unpack =>
    split
    · exact endsWell_raise _ _
    · rcases appendBits_cases _ _ s with ⟨_, e⟩ | ⟨_, e⟩ <;> rw [e]
      exacts [endsWell_respond _ h rfl rfl rfl, endsWell_raise _ _]
  case encode =>
    split
    · exact endsWell_raise _ _
    · rcases appendBits_cases _ _ s with ⟨_, e⟩ | ⟨_, e⟩ <;> rw [e]
      exacts [endsWell_respond _ h rfl rfl rfl, endsWell_raise _ _]
  case decode =>
    split
    · exact endsWell_raise _ _
    · split
      · exact endsWell_raise _ _
      · rcases appendObuf_cases _ _ s with ⟨_, e⟩ | ⟨_, e⟩ <;> rw [e]
        exacts [endsWell_respond _ h rfl rfl rfl, endsWell_raise _ _]
  all_goals exact endsWell_respond _ h rfl rfl rfl

/-- R208: in FAULTED only `RESET` and `RDREG` do anything of their own. -/
theorem exec_in_faulted (i : Instr) (s : State) (h : s.err ≠ 0#8) (hr : i ≠ .reset) (hd : ∀ r, i ≠ .rdreg r) :
    exec i s = .next (answerFaulted s) := by
  cases i <;> simp only [exec]
  case reset => exact absurd rfl hr
  case rdreg r => exact absurd rfl (hd r)
  all_goals exact whenReady_of_faulted h _

theorem step_of_rst {s : State} {rest : List HostAction} (h : s.requests = .rst :: rest) :
    step s = .next (hardReset { s with requests := rest }) := by
  simp only [step, serveNext, h, perform]

theorem step_of_command {s : State} {w : CommandWord} {rest : List HostAction} (h : s.requests = .command w :: rest) :
    step s = transact w { s with requests := rest } := by
  simp only [step, serveNext, h, perform]

theorem transact_of_decode {w : CommandWord} {i : Instr} (h : decode w = some i) (s : State) :
    transact w s = exec i s := by
  simp only [transact, h]

theorem transact_of_illegal {w : CommandWord} (h : decode w = none) (s : State) :
    transact w s = .next (illegalWord w s) := by
  simp only [transact, h]

end Sys2Proof.Machine
end

