-- ==== Sys2Proof/Laws/Decoder.lean ====
section
/-! SUPPORT. The decoder's match and one iteration of its loop (spec R181, R182). -/

namespace Sys2Proof.Machine

/-- A match is a present entry whose code is a prefix of the upcoming bits. -/
theorem matchEntry_eq_some {t : CodeTable} {u : Bits} {e : Byte × Code} (h : matchEntry t u = some e) :
    e ∈ t ∧ e.2 <+: u := by
  have hp := List.find?_some h
  exact ⟨List.mem_of_find?_eq_some h, (isPrefix_iff _ _).1 hp⟩

theorem matchEntry_eq_none {t : CodeTable} {u : Bits} : matchEntry t u = none ↔ ∀ e ∈ t, ¬e.2 <+: u := by
  simp [matchEntry, List.find?_eq_none, isPrefix_iff]

/-- In a prefix code in canonical form, an entry whose code is a prefix of the upcoming bits is the match (R182). -/
theorem matchEntry_of_prefix {t : CodeTable} (hc : CodeTable.canonical t = true) (hp : prefixFree t = true)
    {u : Bits} {e : Byte × Code} (he : e ∈ t) (hu : e.2 <+: u) : matchEntry t u = some e := by
  cases hm : matchEntry t u with
  | none => exact absurd hu (matchEntry_eq_none.1 hm e he)
  | some f =>
    obtain ⟨hf, hfu⟩ := matchEntry_eq_some hm
    have hef : e.1 = f.1 := by
      by_contra hne
      rcases List.prefix_or_prefix_of_prefix hu hfu with h | h
      · exact (prefixFree_iff t).1 hp e he f hf hne h
      · exact (prefixFree_iff t).1 hp f hf e he (Ne.symm hne) h
    have h1 := (codeOf_eq_some_iff hc e.1 e.2).2 he
    have h2 := (codeOf_eq_some_iff hc f.1 f.2).2 hf
    rw [← hef, h1] at h2
    exact congrArg some (Prod.ext hef.symm (Option.some.inj h2).symm)

@[simp] theorem decodeFrom_nil (t : CodeTable) (fuel cur : Nat) : decodeFrom t fuel cur [] = .ok [] := by
  cases fuel <;> rfl

theorem decodeFrom_of_match {t : CodeTable} {u : Bits} {a : Byte} {c : Code} (hu : u ≠ [])
    (hm : matchEntry t u = some (a, c)) (fuel cur : Nat) :
    decodeFrom t (fuel + 1) cur u = (decodeFrom t fuel (cur + c.length) (u.drop c.length)).map (a :: ·) := by
  match u, hu with
  | b :: rest, _ => rw [decodeFrom, hm]

theorem decodeFrom_of_no_match {t : CodeTable} {u : Bits} (hu : u ≠ []) (hm : matchEntry t u = none) (fuel cur : Nat) :
    decodeFrom t (fuel + 1) cur u = .error ⟨.decodeError, cur⟩ := by
  match u, hu with
  | b :: rest, _ => rw [decodeFrom, hm]

end Sys2Proof.Machine
end

