-- ==== Sys2Proof/Laws/Encoder.lean ====
section
/-! SUPPORT. The encoder over one more byte, and that its result does not depend on the index it starts from (spec R171). -/

namespace Sys2Proof.Machine

@[simp] theorem encodeBytes_nil (t : CodeTable) : encodeBytes [] t = .ok [] := rfl

theorem encodeFrom_cons (t : CodeTable) (i : Nat) (a : Byte) (b : Bytes) :
    encodeFrom t i (a :: b) =
      match codeOf t a with
      | none => .error ⟨.lookupError, i⟩
      | some c => (encodeFrom t (i + 1) b).map (c ++ ·) := rfl

/-- The index matters to the failure alone. -/
theorem encodeFrom_ok_iff (t : CodeTable) (i j : Nat) (b : Bytes) (r : Bits) :
    encodeFrom t i b = .ok r ↔ encodeFrom t j b = .ok r := by
  induction b generalizing i j r with
  | nil => exact Iff.rfl
  | cons a b ih =>
    rw [encodeFrom_cons, encodeFrom_cons]
    split
    · exact ⟨nofun, nofun⟩
    · next c hc =>
      have key : ∀ i j, (encodeFrom t i b).map (c ++ ·) = .ok r → (encodeFrom t j b).map (c ++ ·) = .ok r := by
        intro i j h
        cases he : encodeFrom t i b with
        | error f => rw [he] at h; cases h
        | ok q => rw [he] at h; rw [(ih i j q).1 he]; exact h
      exact ⟨key _ _, key _ _⟩

/-- `encode` of one more byte: its code, then the codes of the rest. -/
theorem encodeBytes_cons_eq_ok (t : CodeTable) (a : Byte) (b : Bytes) (r : Bits) :
    encodeBytes (a :: b) t = .ok r ↔ ∃ c q, codeOf t a = some c ∧ encodeBytes b t = .ok q ∧ r = c ++ q := by
  rw [encodeBytes, encodeFrom_cons]
  constructor
  · intro h
    split at h
    · cases h
    · next c hc =>
      cases he : encodeFrom t (0 + 1) b with
      | error f => rw [he] at h; cases h
      | ok q => rw [he] at h; cases h; exact ⟨c, q, hc, (encodeFrom_ok_iff t _ 0 b q).1 he, rfl⟩
  · rintro ⟨c, q, hc, hq, rfl⟩
    rw [hc]
    have : encodeFrom t (0 + 1) b = .ok q := (encodeFrom_ok_iff t _ 0 b q).2 hq
    simp only [this, Except.map]

end Sys2Proof.Machine
end

