-- ==== Sys2Proof/Laws/Encoding.lean ====
section
/-! SUPPORT. The two fields of a command word (spec R72), and what a row of the opcode map (R76) says of them. -/

namespace Sys2Proof

@[simp] theorem opField_mkWord (op imm : Byte) : opField (mkWord op imm) = op := by
  apply BitVec.eq_of_toNat_eq
  have := op.isLt
  have := imm.isLt
  simp only [opField, mkWord, BitVec.extractLsb'_toNat, BitVec.toNat_ofNat, Nat.shiftRight_eq_div_pow]
  omega

@[simp] theorem immField_mkWord (op imm : Byte) : immField (mkWord op imm) = imm := by
  apply BitVec.eq_of_toNat_eq
  have := op.isLt
  have := imm.isLt
  simp only [immField, mkWord, BitVec.extractLsb'_toNat, BitVec.toNat_ofNat]
  omega

@[simp] theorem mkWord_fields (w : CommandWord) : mkWord (opField w) (immField w) = w := by
  apply BitVec.eq_of_toNat_eq
  have := w.isLt
  simp only [opField, immField, mkWord, BitVec.extractLsb'_toNat, BitVec.toNat_ofNat, Nat.shiftRight_eq_div_pow]
  omega

theorem word_eq_iff (v w : CommandWord) : v = w ↔ opField v = opField w ∧ immField v = immField w :=
  ⟨fun h => by simp [h], fun ⟨ho, hi⟩ => by rw [← mkWord_fields v, ho, hi, mkWord_fields]⟩

theorem opField_and (v w : CommandWord) : opField (v &&& w) = opField v &&& opField w := BitVec.extractLsb'_and

theorem immField_and (v w : CommandWord) : immField (v &&& w) = immField v &&& immField w := BitVec.extractLsb'_and

/-- A row's test on the two fields. -/
theorem row_iff (w pattern mask : CommandWord) :
    w &&& mask = pattern ↔
      opField w &&& opField mask = opField pattern ∧ immField w &&& immField mask = immField pattern := by
  rw [word_eq_iff, opField_and, immField_and]

/-- The three masks of R72 on the operand byte. -/
theorem imm_and_sys0 : ∀ imm : Byte, imm &&& 0xFF#8 = imm := by decide

theorem imm_and_imm1 : ∀ imm : Byte, imm &&& 0xFE#8 = 0#8 ↔ imm.toNat < 2 := by decide

theorem decode_mkWord (op imm : Byte) : decode (mkWord op imm) = decodeFields op imm := by simp [decode]

end Sys2Proof
end

