-- ==== Sys2Proof/Laws/Flags.lean ====
section
/-! SUPPORT. The `STATUS` register bit by bit (spec R35). -/

namespace Sys2Proof.Machine

theorem flagBit_getLsbD {k : Nat} (hk : k < 32) (b : Bool) (j : Nat) :
    (flagBit k b).getLsbD j = (decide (j = k) && b) := by
  cases b
  · simp [flagBit]
  · by_cases h : j = k
    · simp [flagBit, h, hk]
    · simp [flagBit, BitVec.getLsbD_twoPow, h, Ne.symm h]

/-- Every bit of `STATUS`. -/
theorem status_getLsbD (s : State) (j : Nat) :
    (status s).getLsbD j =
      (s.err.getLsbD j || (decide (j = 8) && iempty s) || (decide (j = 9) && oempty s) ||
        (decide (j = 10) && bempty s) || (decide (j = 11) && tempty s) || (decide (j = 12) && ifull s) ||
        (decide (j = 13) && ofull s) || (decide (j = 14) && bfull s) || (decide (j = 15) && tfull s)) := by
  have he : (s.err.setWidth 32).getLsbD j = s.err.getLsbD j := by
    rw [BitVec.getLsbD_setWidth]
    by_cases h : j < 32
    · simp [h]
    · simp [h, BitVec.getLsbD_of_ge s.err j (by omega)]
  simp only [status, BitVec.getLsbD_or, he, flagBit_getLsbD (show 8 < 32 by decide),
    flagBit_getLsbD (show 9 < 32 by decide), flagBit_getLsbD (show 10 < 32 by decide),
    flagBit_getLsbD (show 11 < 32 by decide), flagBit_getLsbD (show 12 < 32 by decide),
    flagBit_getLsbD (show 13 < 32 by decide), flagBit_getLsbD (show 14 < 32 by decide),
    flagBit_getLsbD (show 15 < 32 by decide)]

end Sys2Proof.Machine
end

