-- ==== Sys2Proof/Laws/PackUnpack.lean ====
section
/-! SUPPORT. Lengths and contents of a packed payload and of a packed code (spec R83, R85, R151), and when `unpack`
succeeds (R156). -/

namespace Sys2Proof.Machine

theorem padCount_bounds (n : Nat) : 1 ≤ padCount n ∧ padCount n ≤ 8 := by unfold padCount; omega

theorem padCount_aligns (n : Nat) : (n + padCount n) % 8 = 0 := by unfold padCount; omega

theorem padCount_byte (n : Nat) : (BitVec.ofNat 8 (padCount n)).toNat = padCount n := by
  have := padCount_bounds n
  rw [BitVec.toNat_ofNat, Nat.mod_eq_of_lt (by omega)]

/-- The data bytes of a payload open to the bits and their padding. -/
theorem bitsOfBytes_packed (s : Bits) (k : Nat) (h : (s.length + k) % 8 = 0) :
    bitsOfBytes (bytesOfBits (s ++ zeros k)) = s ++ zeros k := by
  obtain ⟨b, hb⟩ := exists_bytes_of_length_mod (s ++ zeros k) (by simpa using h)
  rw [hb]
  have := bytesOfBits_bitsOfBytes_append b []
  simp only [List.append_nil, bytesOfBits] at this
  rw [this]

@[simp] theorem pack_length (s : Bits) : (pack s).length = s.length / 8 + 2 := by
  have h := padCount_aligns s.length
  rw [pack, List.length_cons, bytesOfBits_length _ (by simpa using h)]
  simp only [List.length_append, zeros_length]
  unfold padCount
  omega

/-- R156: what `unpack` answers on a payload with a legal padding byte and at least one data byte. -/
theorem unpack_cons {p : Byte} {y : Bytes} (h1 : 1 ≤ p.toNat) (h8 : p.toNat ≤ 8) (hy : y ≠ []) :
    unpack (p :: y) = .ok ((bitsOfBytes y).take (8 * y.length - p.toNat)) := by
  have : y.length ≠ 0 := by simpa using hy
  simp only [unpack, Config.padMin, Config.padMax]
  rw [if_neg (by omega), if_neg this]

/-- R156, R157: `unpack` succeeds only on such a payload. -/
theorem unpack_eq_ok {b : Bytes} {r : Bits} (h : unpack b = .ok r) :
    ∃ p y, b = p :: y ∧ 1 ≤ p.toNat ∧ p.toNat ≤ 8 ∧ y ≠ [] ∧ r = (bitsOfBytes y).take (8 * y.length - p.toNat) := by
  unfold unpack at h
  split at h
  · cases h
  · next p y =>
    simp only [Config.padMin, Config.padMax] at h
    split at h
    · cases h
    · split at h
      · cases h
      · next h1 h2 =>
        cases h
        exact ⟨p, y, rfl, by omega, by omega, by simpa using h2, rfl⟩

theorem ceil8_eq (l : Nat) : (l + (8 - l % 8) % 8) / 8 = ceil8 l := by unfold ceil8; omega

theorem codePad_aligns (l : Nat) : (l + (8 - l % 8) % 8) % 8 = 0 := by omega

@[simp] theorem packCode_length (c : Code) : (packCode c).length = ceil8 c.length := by
  rw [packCode, bytesOfBits_length _ (by simpa using codePad_aligns c.length)]
  simpa using ceil8_eq c.length

/-- R85: the packed bytes of a code open to the code and its pad bits. -/
theorem bitsOfBytes_packCode (c : Code) :
    bitsOfBytes (packCode c) = c ++ zeros ((8 - c.length % 8) % 8) :=
  bitsOfBytes_packed c _ (codePad_aligns c.length)

theorem unpackCode_length (k : Bytes) (l : Nat) (h : k.length = ceil8 l) : (unpackCode k l).length = l := by
  unfold ceil8 at h
  rw [unpackCode, List.length_take, bitsOfBytes_length]
  omega

end Sys2Proof.Machine
end

