-- ==== Sys2Proof/Laws/Metadata.lean ====
section
/-! SUPPORT. Reading a metadata block entry by entry (spec R137), and that what is read is a table of the unit (R26). -/

namespace Sys2Proof.Machine

/-- One whole entry is read and written into the table. -/
theorem readEntries_entry (n count pos : Nat) (a l : Byte) (k x : Bytes) (t : CodeTable)
    (hl : l ≠ 0#8) (hk : k.length = ceil8 l.toNat) :
    readEntries n (count + 1) pos (a :: l :: (k ++ x)) t =
      readEntries n count (pos + 2 + k.length) x (putCode t a (unpackCode k l.toNat)) := by
  rw [readEntries, if_neg hl, if_neg (by simp [hk]), ← hk, List.drop_left, List.take_left]

/-- All that `readEntries` can answer: the next entry is whole, or the block is malformed there. -/
theorem readEntries_succ (n count pos : Nat) (rest : Bytes) (t : CodeTable) :
    (∃ a l k x, rest = a :: l :: (k ++ x) ∧ l ≠ 0#8 ∧ k.length = ceil8 l.toNat ∧
      readEntries n (count + 1) pos rest t =
        readEntries n count (pos + 2 + k.length) x (putCode t a (unpackCode k l.toNat))) ∨
    (∃ f, f.kind = .formatError ∧ readEntries n (count + 1) pos rest t = .error f) := by
  match rest with
  | [] => exact .inr ⟨⟨.formatError, n⟩, rfl, rfl⟩
  | [_] => exact .inr ⟨⟨.formatError, n⟩, rfl, rfl⟩
  | a :: l :: tail =>
    by_cases hl : l = 0#8
    · exact .inr ⟨⟨.formatError, pos + 1⟩, rfl, by rw [readEntries, if_pos hl]⟩
    · by_cases ht : tail.length < ceil8 l.toNat
      · exact .inr ⟨⟨.formatError, n⟩, rfl, by rw [readEntries, if_neg hl, if_pos ht]⟩
      · have hk : (tail.take (ceil8 l.toNat)).length = ceil8 l.toNat := by simp; omega
        refine .inl ⟨a, l, tail.take (ceil8 l.toNat), tail.drop (ceil8 l.toNat), by simp, hl, hk, ?_⟩
        have := readEntries_entry n count pos a l (tail.take (ceil8 l.toNat)) (tail.drop (ceil8 l.toNat)) t hl hk
        rwa [List.take_append_drop] at this

/-- What `readEntries` answers is a table of the unit, when the table it starts from is one. -/
theorem readEntries_wf {n count pos m : Nat} {rest : Bytes} {t u : CodeTable} (ht : CodeTable.wf t = true)
    (h : readEntries n count pos rest t = .ok (u, m)) : CodeTable.wf u = true := by
  induction count generalizing pos rest t with
  | zero => rw [readEntries] at h; cases h; exact ht
  | succ count ih =>
    rcases readEntries_succ n count pos rest t with ⟨a, l, k, x, -, hl, hk, e⟩ | ⟨f, -, e⟩
    · rw [e] at h
      have hlen := unpackCode_length k l.toNat hk
      have h0 : l.toNat ≠ 0 := fun h0 => hl (BitVec.eq_of_toNat_eq h0)
      have := l.isLt
      exact ih (wf_putCode ht a _ (by omega) (by omega)) h
    · rw [e] at h; cases h

theorem readEntries_error {n count pos : Nat} {rest : Bytes} {t : CodeTable} {f : Failure}
    (h : readEntries n count pos rest t = .error f) : f.kind = .formatError := by
  induction count generalizing pos rest t with
  | zero => cases h
  | succ count ih =>
    rcases readEntries_succ n count pos rest t with ⟨a, l, k, x, -, -, -, e⟩ | ⟨g, hg, e⟩
    · rw [e] at h; exact ih h
    · rw [e] at h; cases h; exact hg

/-- R137: what `LDTBL` loads is a table of the unit. -/
theorem deserialize_wf {b : Bytes} {t : CodeTable} {n : Nat} (h : deserialize b = .ok (t, n)) : CodeTable.wf t = true := by
  unfold deserialize at h
  split at h
  · cases h
  · split at h
    · cases h
    · exact readEntries_wf rfl h

end Sys2Proof.Machine
end

