-- ==== Sys2Proof/Laws/PerInstr.lean ====
section
/-! SUPPORT. The family `EncodeMatchesRow`: the word of a legal command is a word of its own row of the opcode map
(spec R72, R76), one lemma per command. -/

namespace Sys2Proof.Laws.EncodeMatchesRow

/-- What the family says of a command. -/
def Statement (i : Instr) : Prop :=
  i.wf = true → ∃ row ∈ opcodeRows, row.mnemonic = i.mnemonic ∧ encode i &&& row.mask = row.pattern

/-- A command with a free operand byte (format `IMM8`): its row's mask leaves the operand out. -/
theorem imm8_row {m : String} {op : Byte} (imm : Byte)
    (h : ⟨m, mkWord op 0#8, 0xFF00#16⟩ ∈ opcodeRows) :
    ∃ row ∈ opcodeRows, row.mnemonic = m ∧ mkWord op imm &&& row.mask = row.pattern := by
  have ho : opField 0xFF00#16 = 0xFF#8 := by decide
  have hi : immField 0xFF00#16 = 0#8 := by decide
  exact ⟨_, h, rfl, (row_iff _ _ _).2 (by simp [ho, hi, imm_and_sys0])⟩

theorem nop : Statement .nop := fun _ => by decide

theorem reset : Statement .reset := fun _ => by decide

theorem rdreg (r : Byte) : Statement (.rdreg r) := fun _ => imm8_row (m := "RDREG") (op := 0x02#8) r (by decide)

theorem pushi (v : Byte) : Statement (.pushi v) := fun _ => imm8_row (m := "PUSHI") (op := 0x10#8) v (by decide)

theorem pushb (b : Byte) : Statement (.pushb b) := by
  intro h
  have ho : opField 0xFFFE#16 = 0xFF#8 := by decide
  have hi : immField 0xFFFE#16 = 0xFE#8 := by decide
  have hp : opField 0x1100#16 = 0x11#8 ∧ immField 0x1100#16 = 0#8 := by decide
  refine ⟨⟨"PUSHB", 0x1100#16, 0xFFFE#16⟩, by decide, rfl, (row_iff _ _ _).2 ?_⟩
  simp only [encode, opField_mkWord, immField_mkWord, ho, hi, hp.1, hp.2, imm_and_sys0, true_and]
  exact (imm_and_imm1 b).2 (by simpa [Instr.wf] using h)

theorem popo : Statement .popo := fun _ => by decide

theorem popb : Statement .popb := fun _ => by decide

theorem clri : Statement .clri := fun _ => by decide

theorem clro : Statement .clro := fun _ => by decide

theorem clrb : Statement .clrb := fun _ => by decide

theorem tblclr : Statement .tblclr := fun _ => by decide

theorem tblset (s : Byte) : Statement (.tblset s) := fun _ => imm8_row (m := "TBLSET") (op := 0x21#8) s (by decide)

theorem tblget (s : Byte) : Statement (.tblget s) := fun _ => imm8_row (m := "TBLGET") (op := 0x22#8) s (by decide)

theorem ldtbl : Statement .ldtbl := fun _ => by decide

theorem sttbl : Statement .sttbl := fun _ => by decide

theorem pack : Statement .pack := fun _ => by decide

theorem unpack : Statement .unpack := fun _ => by decide

theorem encode : Statement .encode := fun _ => by decide

theorem decode : Statement .decode := fun _ => by decide

end Sys2Proof.Laws.EncodeMatchesRow
end

