-- ==== Sys2Proof/Laws/Safety.lean ====
section
/-! SUPPORT. The launch premises of R239: the reset state is a clean start, and a sequence loads at most one table. -/

namespace Sys2Proof.Machine

theorem cleanStart_resetAt (c : Capacities) : (State.resetAt c).cleanStart := rfl

/-- P1 is stronger than P2 (R239). -/
theorem ready_of_cleanStart {s : State} (h : s.cleanStart) : s.ready :=
  (congrArg State.err h).symm.trans (toReset_err s)

theorem loads_unique {s : State} {l : List HostAction} {t t' : CodeTable} (h : s.loads l t) (h' : s.loads l t') :
    t = t' := by
  obtain ⟨u, hu, -, rfl⟩ := h
  obtain ⟨v, hv, -, rfl⟩ := h'
  exact congrArg State.ct (Host.Outcome.next.inj (hu.symm.trans hv))

/-- P4 on a sequence whose table is known. -/
theorem loadsPrefixCode_iff {s : State} {l : List HostAction} {t : CodeTable} (h : s.loads l t) :
    s.loadsPrefixCode l ↔ prefixFree t = true :=
  ⟨fun ⟨_, ht, hp⟩ => loads_unique h ht ▸ hp, fun hp => ⟨t, h, hp⟩⟩

end Sys2Proof.Machine
end

