-- ==== Sys2Proof/Tests/Slice0.lean ====
section
/-! SUPPORT. Tests of the model: the operand check, the decoding of written-out words, single steps with the results
of spec/95_test_vectors.md (the vector's id stands at each test), and for every statement with hypotheses a state and
operands that meet them. -/

namespace Sys2Proof.Tests

open Sys2Proof.Machine Sys2Proof.Spec

/-- The state an outcome goes on with. -/
def nextOf (r : Result) : Option State :=
  match r with
  | .next s => some s
  | .fault _ => none
  | .refused _ => none

/-- READY, everything empty, all capacities `c`. -/
def empty (c : Nat) : State := State.resetAt ⟨c, c, c⟩

/-- Table `CT3` of 95_test_vectors.md. -/
def ct3 : CodeTable := [(0x41#8, [false]), (0x42#8, [true, false]), (0x43#8, [true, true])]

/-- Table `CT1` of 95_test_vectors.md. -/
def ct1 : CodeTable := [(0x41#8, [false])]

/-- The table of vector D17, no prefix code. -/
def ct17 : CodeTable := [(0x01#8, [false]), (0x02#8, [false, true])]

/-- A bit sequence from its digits. -/
def bitsOf (t : List Nat) : Bits := t.map fun n => decide (n = 1)

/-- `ERR`, `ERRINFO` of a faulted outcome that kept its buffers and its table. -/
def faultOf (s : State) (r : Result) : Option (Nat × Nat) :=
  (nextOf r).bind fun t =>
    if t = { s with err := t.err, errinfo := t.errinfo, rsp := some ⟨t.err, t.errinfo⟩ } then
      some (t.err.toNat, t.errinfo.toNat)
    else none

/-- The response of an outcome. -/
def responseOf (r : Result) : Option (Nat × Nat) :=
  (nextOf r).bind fun t => t.rsp.map fun x => (x.err.toNat, x.data.toNat)

/-! ## WellFormed -/

/-- R72, R112: an operand of 2 or more is refused, 0 and 1 are not. -/
theorem test_wf_pushb : Instr.wf (.pushb 2#8) = false ∧ Instr.wf (.pushb 0xFF#8) = false ∧
    Instr.wf (.pushb 0#8) = true ∧ Instr.wf (.pushb 1#8) = true := by decide

/-- R79: the `IMM8` commands take every operand. -/
theorem test_wf_imm8 : Instr.wf (.rdreg 0xFF#8) = true ∧ Instr.wf (.pushi 0xFF#8) = true ∧
    Instr.wf (.tblset 0xFF#8) = true ∧ Instr.wf (.tblget 0xFF#8) = true := by decide

/-! ## Decode: every row of R76, the word written as `op` then `imm8` in binary -/

theorem test_decode_system :
    decode 0b0000000000000000#16 = some .nop ∧ decode 0b0000000100000000#16 = some .reset ∧
    decode 0b0000001000000111#16 = some (.rdreg 0b00000111#8) := by decide

theorem test_decode_buffers :
    decode 0b0001000010000001#16 = some (.pushi 0b10000001#8) ∧ decode 0b0001000100000001#16 = some (.pushb 1#8) ∧
    decode 0b0001001000000000#16 = some .popo ∧ decode 0b0001001100000000#16 = some .popb ∧
    decode 0b0001010000000000#16 = some .clri ∧ decode 0b0001010100000000#16 = some .clro ∧
    decode 0b0001011000000000#16 = some .clrb := by decide

theorem test_decode_table :
    decode 0b0010000000000000#16 = some .tblclr ∧ decode 0b0010000111000001#16 = some (.tblset 0b11000001#8) ∧
    decode 0b0010001001000010#16 = some (.tblget 0b01000010#8) ∧ decode 0b0010001100000000#16 = some .ldtbl ∧
    decode 0b0010010000000000#16 = some .sttbl := by decide

theorem test_decode_stream :
    decode 0b0011000000000000#16 = some .pack ∧ decode 0b0011000100000000#16 = some .unpack ∧
    decode 0b0011001000000000#16 = some .encode ∧ decode 0b0011001100000000#16 = some .decode := by decide

/-- S5, S9, S10, S11, S12: the illegal words of the vectors. -/
theorem test_decode_illegal :
    decode 0x0300#16 = none ∧ decode 0x0001#16 = none ∧ decode 0x1102#16 = none ∧ decode 0x0101#16 = none ∧
    decode 0xFFFF#16 = none := by decide

theorem test_decode_table_word :
    decodeTableWord 16 0x10FF = some (.pushi 0xFF#8) ∧ decodeTableWord 16 0x0300 = none ∧
    decodeTableWord 24 0x1010FF = none := by decide

/-- The mnemonics of the opcode map are those of the syntax, in the order of R76. -/
theorem test_rows :
    opcodeRows.map OpcodeRow.mnemonic = ["NOP", "RESET", "RDREG", "PUSHI", "PUSHB", "POPO", "POPB", "CLRI", "CLRO",
      "CLRB", "TBLCLR", "TBLSET", "TBLGET", "LDTBL", "STTBL", "PACK", "UNPACK", "ENCODE", "DECODE"] := by decide

/-! ## Single steps -/

/-- S1. -/
theorem test_nop : responseOf (step (State.reset.withFetchWord 16 0x0000)) = some (0, 0) := by decide

/-- S2, S3, S4. -/
theorem test_rdreg : responseOf (exec (.rdreg 0x00#8) State.reset) = some (0, 0x00000F00) ∧
    responseOf (exec (.rdreg 0x07#8) State.reset) = some (0, 64) ∧
    responseOf (exec (.rdreg 0x42#8) State.reset) = some (0, 0) := by decide

/-- F2: `RDREG` answers in FAULTED. -/
theorem test_rdreg_faulted :
    responseOf (exec (.rdreg 0x05#8)
      { empty 64 with err := 2#8, errinfo := 9#32, bits := bitsOf [0, 1, 0, 0, 1, 1, 0, 1, 0, 1] }) = some (2, 10) := by
  decide

/-- S5: an illegal word in READY. -/
theorem test_illegal : faultOf State.reset (transact 0x0300#16 State.reset) = some (5, 0x0300) := by decide

/-- S11, F3: an illegal word in FAULTED. -/
theorem test_illegal_faulted :
    (let s := { empty 64 with err := 1#8, errinfo := 9#32 }
     faultOf s (transact 0x0101#16 s)) = some (1, 9) := by decide

/-- S8. -/
theorem test_reset :
    nextOf (exec .reset { empty 64 with err := 5#8, errinfo := 768#32, ibuf := [1#8], pad := 5#4, ct := ct1 }) =
      some { empty 64 with rsp := some ⟨0#8, 0#32⟩ } := by decide

/-- B1: the status after two pushes, the second of them here. -/
theorem test_pushi :
    (nextOf (exec (.pushi 0x00#8) { empty 64 with ibuf := [0xFF#8] })).map (fun t => (t.ibuf, (status t).toNat)) =
      some ([0xFF#8, 0x00#8], 0x00000E00) := by decide

/-- B7. -/
theorem test_pushi_full :
    (let s := { empty 64 with cap := ⟨2, 64, 64⟩, ibuf := [0x41#8, 0x42#8] }
     ((status s).toNat, faultOf s (exec (.pushi 0x43#8) s))) = (0x00001E00, some (4, 2)) := by decide

/-- B3. -/
theorem test_pushb :
    (nextOf (exec (.pushb 1#8) { empty 64 with bits := bitsOf [1, 0] })).map State.bits = some (bitsOf [1, 0, 1]) := by
  decide

/-- B8. -/
theorem test_pushb_full :
    (let s := { empty 64 with cap := ⟨64, 64, 2⟩, bits := bitsOf [1, 1] }
     ((status s).toNat, faultOf s (exec (.pushb 0#8) s))) = (0x00004B00, some (4, 2)) := by decide

/-- B9. -/
theorem test_popo :
    (nextOf (exec .popo { empty 64 with obuf := [0x41#8, 0x42#8] })).map State.obuf = some [0x42#8] ∧
    responseOf (exec .popo { empty 64 with obuf := [0x41#8, 0x42#8] }) = some (0, 65) ∧
    faultOf (empty 64) (exec .popo (empty 64)) = some (4, 0) := by decide

/-- B4, B5. -/
theorem test_popb :
    (nextOf (exec .popb { empty 64 with bits := bitsOf [1, 0, 1] })).map State.bits = some (bitsOf [0, 1]) ∧
    responseOf (exec .popb { empty 64 with bits := bitsOf [1, 0, 1] }) = some (0, 1) ∧
    faultOf (empty 64) (exec .popb (empty 64)) = some (4, 0) := by decide

/-- B2, B10, B5: each clear empties its own buffer. -/
theorem test_clears :
    (let s := { empty 64 with ibuf := [1#8], obuf := [2#8], bits := [true] }
     ([Instr.clri, .clro, .clrb].map fun i => (nextOf (exec i s)).map fun t => (t.ibuf, t.obuf, t.bits))) =
      [some ([], [2#8], [true]), some ([1#8], [], [true]), some ([1#8], [2#8], [])] := by decide

/-- F1: ignored in FAULTED. -/
theorem test_clrb_faulted :
    (let s := { empty 64 with err := 2#8, errinfo := 9#32, bits := [true] }
     faultOf s (exec .clrb s)) = some (2, 9) := by decide

/-- T6b. -/
theorem test_tblclr :
    (nextOf (exec .tblclr { empty 64 with ct := ct1, bits := bitsOf [1, 1] })).map (fun t => (t.ct, t.bits)) =
      some ([], bitsOf [1, 1]) := by decide

/-- T6a: a second write replaces. -/
theorem test_tblset_replaces :
    (nextOf (exec (.tblset 0x41#8) { empty 64 with ct := ct1, bits := bitsOf [1, 1] })).map
      (fun t => (t.ct, t.bits, t.rsp)) = some ([(0x41#8, bitsOf [1, 1])], [], some ⟨0#8, 2#32⟩) := by decide

/-- T4, T5. -/
theorem test_tblset_refuses :
    faultOf (empty 300) (exec (.tblset 0x41#8) (empty 300)) = some (6, 0) ∧
    (let s := { empty 300 with bits := List.replicate 256 true }
     faultOf s (exec (.tblset 0x07#8) s)) = some (6, 256) := by decide +kernel

/-- T2, T3. -/
theorem test_tblget :
    (nextOf (exec (.tblget 0x43#8) { empty 64 with ct := ct3, bits := [false] })).map State.bits =
      some (bitsOf [0, 1, 1]) ∧
    responseOf (exec (.tblget 0x44#8) { empty 64 with ct := ct3, bits := [false] }) = some (0, 0) := by decide

/-- T21, T23 and T27: pad bits are ignored, the last entry of a symbol counts, any order is accepted. -/
theorem test_ldtbl :
    deserialize [0x48#8, 0x46#8, 0x4D#8, 0x4E#8, 1#8, 0x41#8, 1#8, 0xFF#8, 4#8, 0#8] = .ok ([(0x41#8, [true])], 8) ∧
    deserialize [0x48#8, 0x46#8, 0x4D#8, 0x4E#8, 2#8, 0x41#8, 1#8, 0#8, 0x41#8, 2#8, 0xC0#8] =
      .ok ([(0x41#8, [true, true])], 11) ∧
    deserialize [0x48#8, 0x46#8, 0x4D#8, 0x4E#8, 3#8, 0x43#8, 2#8, 0xC0#8, 0x41#8, 1#8, 0#8, 0x42#8, 2#8, 0x80#8] =
      .ok (ct3, 14) := ⟨rfl, rfl, rfl⟩

/-- T13 to T19, T22, T24, T26. -/
theorem test_ldtbl_refuses :
    ([[], [0x48#8, 0x46#8, 0x4D#8], [0x48#8, 0x46#8, 0x4D#8, 0x4F#8, 1#8, 0x41#8, 1#8, 0#8],
      [0x48#8, 0x46#8, 0x4D#8, 0x4E#8], [0x48#8, 0x46#8, 0x4D#8, 0x4E#8, 1#8],
      [0x48#8, 0x46#8, 0x4D#8, 0x4E#8, 1#8, 0x41#8], [0x48#8, 0x46#8, 0x4D#8, 0x4E#8, 1#8, 0x41#8, 1#8],
      [0x48#8, 0x46#8, 0x4D#8, 0x4E#8, 1#8, 0x41#8, 0#8], [0x48#8, 0x46#8, 0x4D#8, 0x4E#8, 2#8, 0x41#8, 1#8, 0#8],
      [0x48#8, 0x46#8, 0x4D#8, 0x4E#8, 0#8, 0x41#8, 1#8, 0#8]].map fun b =>
        faultOf { empty 64 with ibuf := b } (exec .ldtbl { empty 64 with ibuf := b })) =
      [0, 0, 0, 4, 5, 6, 7, 6, 8, 8].map fun n => some (1, n) := by decide

/-- T8, T10. -/
theorem test_sttbl :
    (nextOf (exec .sttbl { empty 64 with ct := ct3 })).map State.obuf =
      some [0x48#8, 0x46#8, 0x4D#8, 0x4E#8, 3#8, 0x41#8, 1#8, 0#8, 0x42#8, 2#8, 0x80#8, 0x43#8, 2#8, 0xC0#8] ∧
    serialize [(0x00#8, bitsOf [1, 0, 1, 1, 0, 0, 1, 1, 1]),
        (0xFF#8, bitsOf [1, 0, 1, 1, 0, 0, 1, 1, 0, 1, 0, 1, 0, 1, 0, 1, 0])] =
      [0x48#8, 0x46#8, 0x4D#8, 0x4E#8, 2#8, 0#8, 9#8, 0xB3#8, 0x80#8, 0xFF#8, 0x11#8, 0xB3#8, 0x55#8, 0#8] := by decide

/-- T11. -/
theorem test_sttbl_empty : faultOf (empty 64) (exec .sttbl (empty 64)) = some (6, 0) := by decide

/-- K15 and K1, K5, K6, K14. -/
theorem test_pack :
    (nextOf (exec .pack { empty 64 with bits := bitsOf [1, 0, 1], obuf := [0x41#8] })).map
      (fun t => (t.obuf, t.bits, t.pad, t.rsp)) = some ([0x41#8, 5#8, 0xA0#8], [], 5#4, some ⟨0#8, 5#32⟩) ∧
    ([[], [1, 0, 1, 0, 1, 0, 1], [1, 0, 1, 0, 1, 0, 1, 0], [0, 1, 0, 0, 1, 1, 0, 1, 0, 1, 1]].map fun s =>
      pack (bitsOf s)) = [[8#8, 0#8], [1#8, 0xAA#8], [8#8, 0xAA#8, 0#8], [5#8, 0x4D#8, 0x60#8]] := by decide

/-- K16. -/
theorem test_pack_full :
    (let s := { empty 64 with bits := bitsOf [1, 0, 1], obuf := List.replicate 63 0#8 }
     faultOf s (exec .pack s)) = some (4, 63) := by decide

/-- U17. -/
theorem test_unpack :
    (nextOf (exec .unpack { empty 64 with ibuf := [5#8, 0xA0#8], bits := bitsOf [1, 1] })).map
      (fun t => (t.bits, t.ibuf, t.pad, t.rsp)) = some (bitsOf [1, 1, 1, 0, 1], [], 5#4, some ⟨0#8, 5#32⟩) := by decide

/-- U1 to U6, U16, and U18: the capacity. -/
theorem test_unpack_refuses :
    ([[], [0#8], [8#8], [1#8], [9#8, 0#8], [0#8, 0xFF#8], [0xFF#8, 0#8, 0#8], 1#8 :: List.replicate 9 0xFF#8].map
      fun b => faultOf { empty 64 with ibuf := b } (exec .unpack { empty 64 with ibuf := b })) =
      [(1, 0), (1, 0), (1, 1), (1, 1), (1, 0), (1, 0), (1, 0), (4, 0)].map some := by decide

/-- E2, E14. -/
theorem test_encode :
    (nextOf (exec .encode { empty 64 with ct := ct3, ibuf := [0x43#8, 0x41#8, 0x42#8], bits := [true] })).map
      (fun t => (t.bits, t.ibuf, t.rsp)) = some (bitsOf [1, 1, 1, 0, 1, 0], [], some ⟨0#8, 5#32⟩) := by decide

/-- E15, E16. -/
theorem test_encode_refuses :
    (let s := { empty 4 with ct := ct3, ibuf := [0x42#8, 0x42#8, 0x43#8] }
     faultOf s (exec .encode s)) = some (4, 0) ∧
    (let s := { empty 4 with ct := ct3, ibuf := [0x42#8, 0x42#8, 0x44#8] }
     faultOf s (exec .encode s)) = some (3, 2) := by decide

/-- D22. -/
theorem test_decode :
    (nextOf (exec .decode { empty 64 with ct := ct3, bits := bitsOf [0, 1, 0], obuf := [0x5A#8] })).map
      (fun t => (t.obuf, t.bits, t.rsp)) = some ([0x5A#8, 0x41#8, 0x42#8], [], some ⟨0#8, 2#32⟩) := by decide

/-- D13, D23, D24, D25. -/
theorem test_decode_refuses :
    ([(ct3, [0, 1, 0, 1, 1, 0, 0, 1, 1, 1], 0), (ct3, [0, 0, 0, 0], 62), (ct3, [0, 0, 0, 0, 1], 62), (ct17, [1], 64)].map
      fun v : CodeTable × List Nat × Nat =>
        let s := { empty 64 with ct := v.1, bits := bitsOf v.2.1, obuf := List.replicate v.2.2 0#8 }
        faultOf s (exec .decode s)) = [(2, 9), (4, 62), (2, 4), (6, 0)].map some := by decide

/-- R81: `SETCODE` with a comment, from P1. -/
theorem test_assemble :
    assemble ['S', 'E', 'T', 'C', 'O', 'D', 'E', ' ', '0', 'x', '4', '1', ',', ' ', '"', '0', '"', ' ', ';', 'x', '\n',
      'P', 'O', 'P', 'O'] = some [0x1600#16, 0x1100#16, 0x2141#16, 0x1200#16] := by decide

/-! ## Witnesses: a state and operands that meet the hypotheses of each statement -/

/-- A unit with the given actions pending. -/
def sending (l : List HostAction) : State := { empty 64 with requests := l }

theorem witness_EncodeOfDecode : decode 0x1101#16 = some (.pushb 1#8) := by decide

theorem witness_IllegalWordRaises :
    (∀ row ∈ opcodeRows, 0x0300#16 &&& row.mask ≠ row.pattern) ∧
    (∀ row ∈ opcodeRows, 0x1102#16 &&& row.mask ≠ row.pattern) ∧ (empty 64).err = 0#8 ∧
    ({ empty 64 with err := 1#8 } : State).err ≠ 0#8 := by decide

theorem witness_StepRunsPresentedCommand :
    (sending [.command 0x10FF#16]).requests = .command 0x10FF#16 :: [] ∧ decode 0x10FF#16 = some (.pushi 0xFF#8) ∧
    0x10FF < 2 ^ 16 ∧ decode (BitVec.ofNat 16 0x10FF) = some (.pushi 0xFF#8) ∧ (sending []).requests = [] := by decide

/-- One word for each clause: `RESET`; in FAULTED a `RDREG` and another word; in READY an illegal and a legal word. -/
theorem witness_TransactionOrder :
    ({ empty 64 with err := 1#8 } : State).err ≠ 0#8 ∧ 0x0205#16 ≠ 0x0100#16 ∧
    decode 0x0205#16 = some (.rdreg 5#8) ∧ 0xFFFF#16 ≠ 0x0100#16 ∧ (∀ r, decode 0xFFFF#16 ≠ some (.rdreg r)) ∧
    (empty 64).err = 0#8 ∧ decode 0xFFFF#16 = none ∧ decode 0x0000#16 = some .nop := by decide

theorem witness_ResetValues : Config.capacities.wf ∧ (⟨1, 1, 1⟩ : Capacities).wf ∧
    (⟨2 ^ 32 - 1, 2 ^ 32 - 1, 2 ^ 32 - 1⟩ : Capacities).wf := by decide

theorem witness_RstPulseResets : (sending [.rst]).requests = .rst :: [] := by decide

/-- For `StepKeepsInv`, at full buffers, and for `ResetHasInv`. -/
theorem witness_StepKeepsInv :
    State.Inv { sending [.command 0x3300#16] with obuf := List.replicate 64 0#8, bits := [false], ct := ct3, pad := 8#4 } ∧
    (nextOf (step { sending [.command 0x3300#16] with
      obuf := List.replicate 64 0#8, bits := [false], ct := ct3, pad := 8#4 })).isSome = true :=
  ⟨⟨by decide, by decide, by decide, by decide, by decide, by decide, fun _ => by decide, by decide⟩, by decide⟩

theorem witness_FaultIsAllOrNothing :
    (empty 64).err = 0#8 ∧ ((nextOf (transact 0x1200#16 (empty 64))).map fun t => t.err) = some 4#8 := by decide

theorem witness_OnlyResetLeavesFaulted :
    ([HostAction.command 0x0100#16, .rst].map fun a =>
      (nextOf (step { sending [a] with err := 4#8 })).map fun t => t.err) = [some 0#8, some 0#8] := by decide

theorem witness_FirstFaultIsKept :
    noReset (sending [.command 0x1041#16, .command 0x0203#16]).requests ∧
    ((nextOf (core.run 2 { sending [.command 0x1041#16, .command 0x0203#16] with err := 4#8 } )).map
      fun t => (t.err, t.ibuf)) = some (4#8, []) := by
  constructor
  · intro a ha
    simp only [sending, List.mem_cons, List.not_mem_nil, or_false] at ha
    rcases ha with rfl | rfl <;> decide
  · decide

theorem witness_CleanEndMeansNoFault :
    noReset (sending [.command 0x1041#16, .command 0x0203#16]).requests ∧
    ((nextOf (core.run 2 (sending [.command 0x1041#16, .command 0x0203#16]))).map fun t => (t.err, t.ibuf)) =
      some (0#8, [0x41#8]) :=
  ⟨witness_FirstFaultIsKept.1, by decide⟩

/-- `NOP` meets the hypotheses of every clause. -/
theorem witness_StorageHasOnlyItsWriters :
    (nextOf (exec .nop (empty 64))).isSome = true ∧ Instr.nop ≠ .reset ∧ (∀ v, Instr.nop ≠ .pushi v) ∧
    (∀ b, Instr.nop ≠ .pushb b) ∧ (∀ a, Instr.nop ≠ .tblset a) ∧ (∀ a, Instr.nop ≠ .tblget a) := by decide

theorem witness_BufferAccessIgnoresTable :
    ([Instr.pushi 0xFF#8, .pushb 1#8, .popo, .popb, .clri, .clro, .clrb].map fun i =>
      (nextOf (exec i (empty 64))).isSome) = List.replicate 7 true := by decide

/-- The register numbers around the last register. -/
theorem witness_RdregAnswersRegister :
    (0x09#8, BitVec.ofNat 32 (empty 64).cap.bits) ∈ [(0x08#8, 0#32), (0x09#8, 64#32)] ∧
    0x0A ≤ (0x0A#8).toNat ∧ 0x0A ≤ (0xFF#8).toNat := by decide

/-- Also the hypothesis of `PrefixFreeIsPairwise`. -/
theorem witness_TcntCountsPresentSymbols :
    CodeTable.canonical [] = true ∧ CodeTable.canonical ct3 = true := by decide

/-- READY, the one hypothesis of `ClearsEmptyOneBuffer` and `TblclrEmptiesTable`; READY and FAULTED, and the operands
around 0, for `NopAnswersZero`. -/
theorem witness_NopAnswersZero :
    ({ empty 2 with ibuf := [1#8], bits := [true], ct := ct3 } : State).err = 0#8 ∧
    ({ empty 2 with err := 6#8 } : State).err ≠ 0#8 ∧ 1#8 ≠ 0#8 ∧ 0xFF#8 ≠ 0#8 := by decide

/-- READY, with one place free and with none. -/
theorem witness_PushiAppendsByte :
    (let s := { empty 2 with ibuf := [1#8] }; s.err = 0#8 ∧ s.ibuf.length ≠ s.cap.ibuf) ∧
    (let s := { empty 2 with ibuf := [1#8, 2#8] }; s.err = 0#8 ∧ s.ibuf.length = s.cap.ibuf) := by decide

theorem witness_PushbAppendsBit :
    (let s := { empty 2 with bits := [true] }; s.err = 0#8 ∧ (1#8).toNat < 2 ∧ s.bits.length ≠ s.cap.bits) ∧
    (let s := { empty 2 with bits := [true, true] }; s.err = 0#8 ∧ (1#8).toNat < 2 ∧ s.bits.length = s.cap.bits) ∧
    2 ≤ (2#8).toNat ∧ 2 ≤ (0xFF#8).toNat := by decide

/-- For `PopoRemovesHeadByte` and `PopbRemovesHeadBit`: one element, the last, and none. -/
theorem witness_Pops :
    (let s := { empty 2 with obuf := [7#8], bits := [true] }; s.err = 0#8 ∧ s.obuf = 7#8 :: [] ∧ s.bits = true :: []) ∧
    (empty 2).err = 0#8 ∧ (empty 2).obuf = [] ∧ (empty 2).bits = [] := by decide

/-- READY units on a table in canonical form, with codes of 1 and 255 bits, and of 0 and 256 bits. -/
theorem witness_TblsetStoresCode :
    (∀ n ∈ [1, 255], (let s := { empty 300 with ct := ct3, bits := List.replicate n true }
      s.err = 0#8 ∧ 1 ≤ s.bits.length ∧ s.bits.length ≤ 255 ∧ CodeTable.canonical s.ct = true)) ∧
    (∀ n ∈ [0, 256], (let s := { empty 300 with ct := ct3, bits := List.replicate n true }
      s.err = 0#8 ∧ (s.bits.length = 0 ∨ 255 < s.bits.length))) := by decide +kernel

theorem witness_TblgetAppendsCode :
    codeOf ct3 0x44#8 = none ∧ codeOf ct3 0x43#8 = some [true, true] ∧
    (let s := { empty 4 with ct := ct3, bits := [true, true] }; s.err = 0#8 ∧ s.bits.length + 2 ≤ s.cap.bits) ∧
    (let s := { empty 3 with ct := ct3, bits := [true, true] }; s.err = 0#8 ∧ s.cap.bits < s.bits.length + 2) := by
  decide

/-- Entries with the shortest and the longest code. -/
theorem witness_entry : RawEntry.ok ⟨0x41#8, 1#8, [0xFF#8]⟩ ∧ RawEntry.ok ⟨0x41#8, 255#8, List.replicate 32 0xFF#8⟩ :=
  ⟨⟨by decide, rfl⟩, ⟨by decide, rfl⟩⟩

/-- Blocks of 1 and of 256 entries, with bytes after them. -/
theorem witness_LdtblLoadsBlock :
    ∀ n ∈ [1, 256], 1 ≤ (List.replicate n (⟨0x41#8, 1#8, [0xFF#8]⟩ : RawEntry)).length ∧
      (List.replicate n (⟨0x41#8, 1#8, [0xFF#8]⟩ : RawEntry)).length ≤ 256 ∧
      (∀ e ∈ List.replicate n (⟨0x41#8, 1#8, [0xFF#8]⟩ : RawEntry), e.ok) ∧
      ({ empty 1000 with ibuf := block (List.replicate n ⟨0x41#8, 1#8, [0xFF#8]⟩) ++ [9#8] } : State).ibuf =
        block (List.replicate n ⟨0x41#8, 1#8, [0xFF#8]⟩) ++ [9#8] := by
  intro n hn
  refine ⟨?_, ?_, fun e he => ?_, rfl⟩
  · rw [List.length_replicate]; revert n; decide
  · rw [List.length_replicate]; revert n; decide
  · rw [List.eq_of_mem_replicate he]; exact witness_entry.1

/-- A bad magic; a block of 8 bytes cut at 4 and at 7; a length 0 in the last and in the first of 256 entries. -/
theorem witness_LdtblRefusesMalformed :
    ([0x48#8, 0x46#8, 0x4D#8] : Bytes).take 4 ≠ [0x48#8, 0x46#8, 0x4D#8, 0x4E#8] ∧
    4 ≤ 4 ∧ 7 < (block [⟨0x41#8, 1#8, [0xFF#8]⟩]).length ∧ 7 < 8 ∧
    ([] : List RawEntry).length < (if 1#8 = 0#8 then 256 else (1#8).toNat) ∧
    (List.replicate 255 (⟨0x41#8, 1#8, [0xFF#8]⟩ : RawEntry)).length < (if 0#8 = 0#8 then 256 else (0#8).toNat) := by
  decide +kernel

theorem witness_DeserializeStopsAtBlockEnd :
    deserialize [0x48#8, 0x46#8, 0x4D#8, 0x4E#8, 1#8, 0x41#8, 1#8, 0#8] = .ok (ct1, 8) := rfl

/-- Exactly enough room for the 8 bytes of CT1, one byte too little, and an empty table. -/
theorem witness_SttblAppendsBlock :
    CodeTable.wf ct1 = true ∧ presentSymbols ct1 ≠ [] ∧ (serialize ct1).length = 8 ∧
    (let s := { empty 8 with ct := ct1 }; s.err = 0#8 ∧ s.obuf.length + 8 ≤ s.cap.obuf) ∧
    (let s := { empty 8 with ct := ct1, obuf := [0#8] }; s.err = 0#8 ∧ s.cap.obuf < s.obuf.length + 8) ∧
    CodeTable.wf [] = true ∧ presentSymbols [] = [] := by decide +kernel

/-- For `SerializeSize` and `DeserializeOfSerialize`: a table of one and of 256 symbols. -/
theorem witness_SerializeSize :
    CodeTable.wf ct1 = true ∧ 1 ≤ tcnt ct1 ∧
    (let t : CodeTable := (List.range 256).map fun n => (BitVec.ofNat 8 n, bitsOfByte (BitVec.ofNat 8 n))
     CodeTable.wf t = true ∧ tcnt t = 256) := by decide +kernel

/-- Room for the 2 bytes of an empty sequence exactly, and one byte too little. -/
theorem witness_PackAppendsPayload :
    (empty 2).err = 0#8 ∧ (empty 2).obuf.length + ((empty 2).bits.length / 8 + 2) ≤ (empty 2).cap.obuf ∧
    (empty 1).err = 0#8 ∧ (empty 1).cap.obuf < (empty 1).obuf.length + ((empty 1).bits.length / 8 + 2) := by decide

/-- Padding counts 1 and 8, 0 and 9; room for 7 bits exactly and not. -/
theorem witness_UnpackAppendsBits :
    (let s := { empty 7 with ibuf := [1#8, 0xFF#8] }
     s.err = 0#8 ∧ s.ibuf = 1#8 :: [0xFF#8] ∧ 1 ≤ (1#8).toNat ∧ [0xFF#8] ≠ [] ∧
       s.bits.length + (8 * [0xFF#8].length - (1#8).toNat) ≤ s.cap.bits) ∧
    (let s := { empty 6 with ibuf := [1#8, 0xFF#8] }
     s.cap.bits < s.bits.length + (8 * [0xFF#8].length - (1#8).toNat)) ∧
    (8#8).toNat ≤ 8 ∧ (0#8).toNat = 0 ∧ 9 ≤ (9#8).toNat ∧ ({ empty 6 with ibuf := [8#8] } : State).ibuf = [8#8] := by
  decide

/-- CT3, `IBUF = 42`: two bits, with exactly enough room and one too few; and an input whose second byte has no entry. -/
theorem witness_EncodeAppendsCodes :
    covered [0x42#8] ct3 ∧ codeOf ct3 0x44#8 = none ∧ codesOf ct3 [0x42#8] = [true, false] ∧
    (empty 2).bits.length + (codesOf ct3 [0x42#8]).length ≤ (empty 2).cap.bits ∧
    (empty 1).cap.bits < (empty 1).bits.length + (codesOf ct3 [0x42#8]).length ∧
    [0x42#8, 0x44#8] = [0x42#8] ++ 0x44#8 :: [] := by unfold covered; decide

/-- CT3, `BITS = "10"`: one symbol, with exactly enough room and none. -/
theorem witness_DecodeAppendsSymbols :
    CodeTable.wf ct3 = true ∧ prefixFree ct3 = true ∧ covered [0x42#8] ct3 ∧ bitsOf [1, 0] = codesOf ct3 [0x42#8] ∧
    (empty 1).obuf.length + [0x42#8].length ≤ (empty 1).cap.obuf ∧
    (let s := { empty 1 with obuf := [0#8] }; s.cap.obuf < s.obuf.length + [0x42#8].length) := by
  unfold covered; decide

/-- CT3, `BITS = "01"` (D6), and the table of D17. -/
theorem witness_DecodeRefusesBadTableOrStream :
    prefixFree ct17 = false ∧ CodeTable.wf ct3 = true ∧ prefixFree ct3 = true ∧ covered [0x41#8] ct3 ∧
    bitsOf [0, 1] = codesOf ct3 [0x41#8] ++ [true] ∧ [true] ≠ [] ∧
    ∀ a c, codeOf ct3 a = some c → ¬c <+: [true] := by
  refine ⟨by decide, by decide, by decide, by unfold covered; decide, by decide, by decide, fun a c h => ?_⟩
  have hall : ∀ a ∈ List.map (BitVec.ofNat 8) (List.range 256), (codeOf ct3 a).all (fun c => !isPrefix c [true]) = true := by
    decide +kernel
  have := hall a (List.mem_map.2 ⟨a.toNat, by simpa using a.isLt, by simp⟩)
  intro hp
  simp [h, isPrefix, List.isPrefixOf_iff_prefix.2 hp] at this

theorem witness_BitOrderIsMsbFirst :
    ([0x80#8, 1#8] : Bytes)[1]? = some 1#8 ∧ 7 < 8 ∧ (List.replicate 16 true).length % 8 = 0 := by decide

/-- Byte 1, bit 7 of a payload of 15 bits: the last byte `j ≤ n / 8` and the last bit. -/
theorem witness_PackBitByBit : 1 ≤ (List.replicate 15 true).length / 8 ∧ 7 < 8 := by decide

theorem witness_PackOfUnpack :
    unpack [8#8, 0#8] = .ok [] ∧ unpack [1#8, 0xFF#8] = .ok (List.replicate 7 true) ∧ pack [true] = pack [true] :=
  ⟨rfl, rfl, rfl⟩

theorem witness_EncodeInPieces : encodeBytes [0x42#8] ct3 = .ok [true, false] := rfl

theorem witness_MatchIsUnique :
    CodeTable.canonical ct3 = true ∧ prefixFree ct3 = true ∧ codeOf ct3 0x42#8 = some [true, false] ∧
    [true, false] <+: [true, false, true] := by decide

/-- For `DecodeOfEncodedBytes`, `EncodeOfDecodedBits`, `DecodeFailsAtUnmatchedCode`, `SerialDecoderIsDecoder`. -/
theorem witness_DecodeOfEncodedBytes :
    CodeTable.wf ct3 = true ∧ prefixFree ct3 = true ∧ covered [0x41#8, 0x43#8] ct3 := by unfold covered; decide

/-- `.word 0` is a line; its word is legal, `.word 768` gives an illegal one. -/
theorem witness_OnlyDotWordIsIllegal :
    assembleLine ['.', 'w', 'o', 'r', 'd', ' ', '7', '6', '8'] = some (some (.word 0x0300#16)) ∧
    0x0300#16 ∈ (AsmItem.word 0x0300#16).expand ∧ decode 0x0300#16 = none := by decide

/-- A code of one bit in a unit that has just room for it. -/
theorem witness_SetcodeStoresExactCode :
    (let s := { empty 1 with requests := (AsmItem.setcode 0x41#8 [true]).expand.map HostAction.command }
     s.err = 0#8 ∧ 1 ≤ [true].length ∧ [true].length ≤ 255 ∧ [true].length ≤ s.cap.bits) ∧
    1 ≤ (List.replicate 255 true).length ∧ (List.replicate 255 true).length ≤ 255 := by decide +kernel

/-- The data of P3, with capacities that are just enough on the side that compresses. -/
theorem witness_FrameRoundTrip :
    (let b : Bytes := [0x41#8, 0x42#8, 0x41#8, 0x43#8, 0x41#8, 0x42#8, 0x43#8]
     let s := { empty 17 with ibuf := b, ct := ct3 }
     let u := { empty 17 with ibuf := frame ct3 (codesOf ct3 b) }
     s.err = 0#8 ∧ s.obuf = [] ∧ s.bits = [] ∧ CodeTable.wf s.ct = true ∧ 1 ≤ tcnt s.ct ∧ prefixFree s.ct = true ∧
       covered b s.ct ∧ (codesOf s.ct b).length ≤ s.cap.bits ∧
       (frame s.ct (codesOf s.ct b)).length ≤ s.cap.obuf ∧ u.err = 0#8 ∧ u.obuf = [] ∧ u.bits = [] ∧
       (codesOf s.ct b).length ≤ u.cap.bits ∧ b.length ≤ u.cap.obuf) := by unfold covered; decide +kernel

/-- The table and data of P3 with capacities that are just enough. -/
theorem witness_PipelinesFromReset :
    (let b : Bytes := [0x41#8, 0x42#8, 0x41#8, 0x43#8, 0x41#8, 0x42#8, 0x43#8]
     let c : Capacities := ⟨17, 17, 11⟩
     CodeTable.wf ct3 = true ∧ 1 ≤ tcnt ct3 ∧ prefixFree ct3 = true ∧ covered b ct3 ∧
       (∀ e ∈ ct3, e.2.length ≤ c.bits) ∧ (codesOf ct3 b).length ≤ c.bits ∧ b.length ≤ c.ibuf ∧
       (frame ct3 (codesOf ct3 b)).length ≤ c.ibuf ∧ b.length ≤ c.obuf ∧
       (frame ct3 (codesOf ct3 b)).length ≤ c.obuf) ∧
    ∀ a code, codeOf ct3 a = some code → code.length ≤ 11 := by
  refine ⟨by unfold covered; decide +kernel, fun a code h => ?_⟩
  have hall : ∀ e ∈ ct3, e.2.length ≤ 11 := by decide
  exact hall (a, code) (mem_of_codeOf h)

/-- P4 says something at a clean start: the sequence that loads CT3 meets it, the one that loads the table of D17 does
not, although `CT` is empty (and so a prefix code) at the start of both. -/
theorem test_loadsPrefixCode :
    (empty 64).loadsPrefixCode (actionsOf (tableSequence ct3)) ∧
    ¬(empty 64).loadsPrefixCode (actionsOf (tableSequence ct17)) := by
  have h3 : (empty 64).loads (actionsOf (tableSequence ct3)) ct3 := ⟨_, rfl, rfl, rfl⟩
  have h17 : (empty 64).loads (actionsOf (tableSequence ct17)) ct17 := ⟨_, rfl, rfl, rfl⟩
  exact ⟨(loadsPrefixCode_iff h3).2 (by decide), fun h => absurd ((loadsPrefixCode_iff h17).1 h) (by decide)⟩

/-- Both halves at the least capacity: CT1 needs one bit of room, its block (T20) eight bytes. -/
theorem witness_SequencesLoadTheirTable :
    (empty 1).cleanStart ∧ CodeTable.wf ct1 = true ∧ (∀ a code, codeOf ct1 a = some code → (empty 1).room 0 0 code.length) ∧
    (empty 8).cleanStart ∧ deserialize [0x48#8, 0x46#8, 0x4D#8, 0x4E#8, 1#8, 0x41#8, 1#8, 0#8] = .ok (ct1, 8) ∧
    (empty 8).room 8 0 0 := by
  refine ⟨rfl, by decide, fun a code h => ?_, rfl, rfl, by decide, by decide, by decide⟩
  have hall : ∀ e ∈ ct1, e.2.length ≤ 1 := by decide
  exact ⟨by decide, by decide, hall (a, code) (mem_of_codeOf h)⟩

end Sys2Proof.Tests
end

section
/-! SUPPORT. How a command can end, said once: each command's successful end in READY with its guard, and the two
answers every command shares, the fault of R207 and the FAULTED answer of R208. -/

namespace Sys2Proof.Machine

/-- The successful end of a command issued in READY: its guard, and its next state as `exec` writes it. `RESET` and
`RDREG`, which also run in FAULTED, are constructors of `Ends`. -/
inductive Completes (s : State) : Instr → State → Prop
  | nop : Completes s .nop (respond 0#32 s)
  | pushi (v : Byte) (room : s.ibuf.length ≠ s.cap.ibuf) :
      Completes s (.pushi v) (respond 0#32 { s with ibuf := s.ibuf ++ [v] })
  | pushb (b : Byte) (legal : b.toNat < 2) (room : s.bits.length ≠ s.cap.bits) :
      Completes s (.pushb b) (respond 0#32 { s with bits := s.bits ++ [bitOperand b] })
  | popo (v : Byte) (rest : Bytes) (head : s.obuf = v :: rest) :
      Completes s .popo (respond (v.setWidth 32) { s with obuf := rest })
  | popb (b : Bool) (rest : Bits) (head : s.bits = b :: rest) :
      Completes s .popb (respond (zext32 b.toNat) { s with bits := rest })
  | clri : Completes s .clri (respond 0#32 { s with ibuf := [] })
  | clro : Completes s .clro (respond 0#32 { s with obuf := [] })
  | clrb : Completes s .clrb (respond 0#32 { s with bits := [] })
  | tblclr : Completes s .tblclr (respond 0#32 { s with ct := [] })
  | tblset (a : Byte) (pos : 1 ≤ s.bits.length) (le : s.bits.length ≤ 255) :
      Completes s (.tblset a) (respond (zext32 s.bits.length) { s with ct := putCode s.ct a s.bits, bits := [] })
  | tblgetAbsent (a : Byte) (absent : codeOf s.ct a = none) : Completes s (.tblget a) (respond 0#32 s)
  | tblget (a : Byte) (c : Code) (present : codeOf s.ct a = some c) (fits : s.bits.length + c.length ≤ s.cap.bits) :
      Completes s (.tblget a) (respond (zext32 c.length) { s with bits := s.bits ++ c })
  | ldtbl (t : CodeTable) (pos : Nat) (block : deserialize s.ibuf = .ok (t, pos)) :
      Completes s .ldtbl (respond (zext32 pos) { s with ct := t, ibuf := s.ibuf.drop pos })
  | sttbl (nonempty : tcnt s.ct ≠ 0) (fits : s.obuf.length + (serialize s.ct).length ≤ s.cap.obuf) :
      Completes s .sttbl (respond (zext32 (serialize s.ct).length) { s with obuf := s.obuf ++ serialize s.ct })
  | pack (fits : s.obuf.length + (pack s.bits).length ≤ s.cap.obuf) :
      Completes s .pack (packDone (padCount s.bits.length) { s with obuf := s.obuf ++ pack s.bits })
  | unpack (r : Bits) (payload : unpack s.ibuf = .ok r) (fits : s.bits.length + r.length ≤ s.cap.bits) :
      Completes s .unpack (unpackDone (s.ibuf.headD 0#8).toNat { s with bits := s.bits ++ r })
  | encode (r : Bits) (codes : encodeBytes s.ibuf s.ct = .ok r) (fits : s.bits.length + r.length ≤ s.cap.bits) :
      Completes s .encode (encodeDone r.length { s with bits := s.bits ++ r })
  | decode (r : Bytes) (prefixCode : prefixFree s.ct = true) (symbols : decodeBits s.bits s.ct = .ok r)
      (fits : s.obuf.length + r.length ≤ s.cap.obuf) :
      Completes s .decode (decodeDone r.length { s with obuf := s.obuf ++ r })

/-- Every way a command can end. -/
inductive Ends (s : State) (i : Instr) : State → Prop
  /-- R207. -/
  | raised (ready : s.err = 0#8) (f : FaultKind) (info : Nat) : Ends s i (raise f info s)
  /-- R208. -/
  | ignored (faulted : s.err ≠ 0#8) : Ends s i (answerFaulted s)
  /-- R102. -/
  | reset (h : i = .reset) : Ends s i (respond 0#32 (toReset s))
  /-- R103. -/
  | rdreg (r : Byte) (h : i = .rdreg r) : Ends s i (respond (readReg r s) s)
  /-- R73 step 4. -/
  | completed {t : State} (ready : s.err = 0#8) (h : Completes s i t) : Ends s i t

theorem ends_of_whenReady {s t : State} {i : Instr} {body : State → State} (h : whenReady s body = .next t)
    (hb : s.err = 0#8 → Ends s i (body s)) : Ends s i t := by
  rcases whenReady_eq_next h with ⟨hs, rfl⟩ | ⟨hs, rfl⟩
  · exact hb hs
  · exact .ignored hs

theorem ends_appendObuf {s : State} {i : Instr} (hs : s.err = 0#8) (y : Bytes) (k : State → State)
    (hk : s.obuf.length + y.length ≤ s.cap.obuf → Completes s i (k { s with obuf := s.obuf ++ y })) :
    Ends s i (appendObuf y k s) := by
  rcases appendObuf_cases y k s with ⟨fits, e⟩ | ⟨_, e⟩ <;> rw [e]
  · exact .completed hs (hk fits)
  · exact .raised hs _ _

theorem ends_appendBits {s : State} {i : Instr} (hs : s.err = 0#8) (r : Bits) (k : State → State)
    (hk : s.bits.length + r.length ≤ s.cap.bits → Completes s i (k { s with bits := s.bits ++ r })) :
    Ends s i (appendBits r k s) := by
  rcases appendBits_cases r k s with ⟨fits, e⟩ | ⟨_, e⟩ <;> rw [e]
  · exact .completed hs (hk fits)
  · exact .raised hs _ _

section
variable {s t : State}

theorem execPushi_ends {v : Byte} (h : execPushi v s = .next t) : Ends s (.pushi v) t :=
  ends_of_whenReady h fun hs => by
    split
    · exact .raised hs _ _
    · next room => exact .completed hs (.pushi v room)

theorem execPushb_ends {b : Byte} (h : execPushb b s = .next t) : Ends s (.pushb b) t :=
  ends_of_whenReady h fun hs => by
    split
    · rw [illegalWord_of_ready hs]; exact .raised hs _ _
    · next legal =>
      split
      · exact .raised hs _ _
      · next room => exact .completed hs (.pushb b (Nat.lt_of_not_le legal) room)

theorem execPopo_ends (h : execPopo s = .next t) : Ends s .popo t :=
  ends_of_whenReady h fun hs => by
    split
    · exact .raised hs _ _
    · next head => exact .completed hs (.popo _ _ head)

theorem execPopb_ends (h : execPopb s = .next t) : Ends s .popb t :=
  ends_of_whenReady h fun hs => by
    split
    · exact .raised hs _ _
    · next head => exact .completed hs (.popb _ _ head)

theorem execTblset_ends {a : Byte} (h : execTblset a s = .next t) : Ends s (.tblset a) t :=
  ends_of_whenReady h fun hs => by
    split
    · exact .raised hs _ _
    · next len =>
      obtain ⟨pos, le⟩ := not_or.1 len
      exact .completed hs (.tblset a (Nat.pos_of_ne_zero pos) (Nat.le_of_not_lt le))

theorem execTblget_ends {a : Byte} (h : execTblget a s = .next t) : Ends s (.tblget a) t :=
  ends_of_whenReady h fun hs => by
    split
    · next absent => exact .completed hs (.tblgetAbsent a absent)
    · next c present => exact ends_appendBits hs _ _ (.tblget a c present)

theorem execLdtbl_ends (h : execLdtbl s = .next t) : Ends s .ldtbl t :=
  ends_of_whenReady h fun hs => by
    split
    · exact .raised hs _ _
    · next block => exact .completed hs (.ldtbl _ _ block)

theorem execSttbl_ends (h : execSttbl s = .next t) : Ends s .sttbl t :=
  ends_of_whenReady h fun hs => by
    split
    · exact .raised hs _ _
    · next nonempty => exact ends_appendObuf hs _ _ (.sttbl nonempty)

theorem execUnpack_ends (h : execUnpack s = .next t) : Ends s .unpack t :=
  ends_of_whenReady h fun hs => by
    split
    · exact .raised hs _ _
    · next r payload => exact ends_appendBits hs _ _ (.unpack r payload)

theorem execEncode_ends (h : execEncode s = .next t) : Ends s .encode t :=
  ends_of_whenReady h fun hs => by
    split
    · exact .raised hs _ _
    · next r codes => exact ends_appendBits hs _ _ (.encode r codes)

theorem execDecode_ends (h : execDecode s = .next t) : Ends s .decode t :=
  ends_of_whenReady h fun hs => by
    split
    · exact .raised hs _ _
    · next prefixCode =>
      split
      · exact .raised hs _ _
      · next r symbols => exact ends_appendObuf hs _ _ (.decode r (Bool.not_eq_false _ ▸ prefixCode) symbols)

/-- The inversion of `exec`: whatever a command answers is one of its ends. -/
theorem exec_ends {i : Instr} (h : exec i s = .next t) : Ends s i t := by
  cases i <;> rw [exec] at h
  case nop => exact ends_of_whenReady h fun hs => .completed hs .nop
  case reset => cases h; exact .reset rfl
  case rdreg r => cases h; exact .rdreg r rfl
  case pushi => exact execPushi_ends h
  case pushb => exact execPushb_ends h
  case popo => exact execPopo_ends h
  case popb => exact execPopb_ends h
  case clri => exact ends_of_whenReady h fun hs => .completed hs .clri
  case clro => exact ends_of_whenReady h fun hs => .completed hs .clro
  case clrb => exact ends_of_whenReady h fun hs => .completed hs .clrb
  case tblclr => exact ends_of_whenReady h fun hs => .completed hs .tblclr
  case tblset => exact execTblset_ends h
  case tblget => exact execTblget_ends h
  case ldtbl => exact execLdtbl_ends h
  case sttbl => exact execSttbl_ends h
  case pack => exact ends_of_whenReady h fun hs => ends_appendObuf hs _ _ .pack
  case unpack => exact execUnpack_ends h
  case encode => exact execEncode_ends h
  case decode => exact execDecode_ends h

end

end Sys2Proof.Machine
end

section
/-! SUPPORT. The invariant of R38 under each shared operation, each command's end and each step. -/

namespace Sys2Proof.Machine

theorem State.Inv.raise {s : State} (hs : s.Inv) (f : FaultKind) (info : Nat) : (raise f info s).Inv :=
  { hs with
    err := f.code_le_six
    errinfo := fun h => absurd h f.code_ne_zero }

theorem State.Inv.answerFaulted {s : State} (hs : s.Inv) : (answerFaulted s).Inv := { hs with }

theorem State.Inv.respond {s : State} (hs : s.Inv) (d : Data) : (respond d s).Inv := { hs with }

theorem State.Inv.withRequests {s : State} (hs : s.Inv) (l : List HostAction) : { s with requests := l }.Inv :=
  { hs with }

theorem State.Inv.illegalWord {s : State} (hs : s.Inv) (w : CommandWord) : (illegalWord w s).Inv := by
  by_cases h : s.err = 0#8
  · rw [illegalWord_of_ready h]; exact hs.raise _ _
  · rw [illegalWord_of_faulted h]; exact hs.answerFaulted

theorem resetAt_inv {c : Capacities} (hc : c.wf) : (State.resetAt c).Inv where
  cap := hc
  ibuf := Nat.zero_le _
  obuf := Nat.zero_le _
  bits := Nat.zero_le _
  ct := rfl
  err := Nat.zero_le _
  errinfo := fun _ => rfl
  pad := Nat.zero_le _

theorem State.Inv.toReset {s : State} (hs : s.Inv) : (toReset s).Inv := { resetAt_inv hs.cap with }

theorem State.Inv.hardReset {s : State} (hs : s.Inv) : (hardReset s).Inv := { resetAt_inv hs.cap with }

/-- A padding count of the unit fits in the four bits of `PAD`. -/
theorem toNat_pad {p : Nat} (h : p ≤ 8) : (BitVec.ofNat 4 p).toNat ≤ 8 := by
  rw [BitVec.toNat_ofNat]; omega

/-- The byte `UNPACK` takes its padding count from is at most 8 (R156). -/
theorem unpack_head_le {b : Bytes} {r : Bits} (h : unpack b = .ok r) : (b.headD 0#8).toNat ≤ 8 := by
  obtain ⟨p, y, rfl, _, h8, _⟩ := unpack_eq_ok h
  exact h8

/-- A command that succeeds checks its buffer's room or only takes from it, stores only codes of 1 to 255 bits, and
leaves `ERR` and `ERRINFO` alone. -/
theorem Completes.keeps_inv {s t : State} {i : Instr} (h : Completes s i t) (hs : s.Inv) : t.Inv := by
  cases h with
  | nop => exact hs.respond _
  | pushi v room =>
    have := hs.ibuf
    exact { hs with ibuf := by simp; omega }
  | pushb b _ room =>
    have := hs.bits
    exact { hs with bits := by simp; omega }
  | popo v rest head =>
    have := hs.obuf
    exact { hs with obuf := by simp [head] at this ⊢; omega }
  | popb b rest head =>
    have := hs.bits
    exact { hs with bits := by simp [head] at this ⊢; omega }
  | clri => exact { hs with ibuf := Nat.zero_le _ }
  | clro => exact { hs with obuf := Nat.zero_le _ }
  | clrb => exact { hs with bits := Nat.zero_le _ }
  | tblclr => exact { hs with ct := rfl }
  | tblset a pos le => exact { hs with ct := wf_putCode hs.ct a _ pos le, bits := Nat.zero_le _ }
  | tblgetAbsent a _ => exact hs.respond _
  | tblget a c _ fits => exact { hs with bits := by simpa using fits }
  | ldtbl t pos block =>
    exact { hs with
      ct := deserialize_wf block
      ibuf := List.length_drop.le.trans ((Nat.sub_le _ _).trans hs.ibuf) }
  | sttbl _ fits => exact { hs with obuf := by simpa using fits }
  | pack fits =>
    exact { hs with
      obuf := by simpa using fits
      bits := Nat.zero_le _
      pad := toNat_pad (padCount_bounds _).2 }
  | unpack r payload fits =>
    exact { hs with
      ibuf := Nat.zero_le _
      bits := by simpa using fits
      pad := toNat_pad (unpack_head_le payload) }
  | encode r _ fits => exact { hs with ibuf := Nat.zero_le _, bits := by simpa using fits }
  | decode r _ _ fits => exact { hs with obuf := by simpa using fits, bits := Nat.zero_le _ }

theorem Ends.keeps_inv {s t : State} {i : Instr} (h : Ends s i t) (hs : s.Inv) : t.Inv := by
  cases h with
  | raised _ f info => exact hs.raise f info
  | ignored _ => exact hs.answerFaulted
  | reset _ => exact hs.toReset.respond _
  | rdreg r _ => exact hs.respond _
  | completed _ h => exact h.keeps_inv hs

theorem transact_keeps_inv {s t : State} {w : CommandWord} (hs : s.Inv) (h : transact w s = .next t) : t.Inv := by
  cases hd : decode w with
  | none =>
    rw [transact_of_illegal hd] at h
    cases h
    exact hs.illegalWord w
  | some i =>
    rw [transact_of_decode hd] at h
    exact (exec_ends h).keeps_inv hs

theorem step_of_idle {s : State} (h : s.requests = []) : step s = .next s := by
  simp only [step, serveNext, h]

/-- Settles O10: a step is idle, a pulse of `rst` or a transaction, and each keeps the invariant. -/
theorem stepKeepsInv : Obligations.StepKeepsInv := by
  intro s t hs h
  cases hq : s.requests with
  | nil =>
    rw [step_of_idle hq] at h
    cases h
    exact hs
  | cons a rest =>
    cases a with
    | command w =>
      rw [step_of_command hq] at h
      exact transact_keeps_inv (hs.withRequests rest) h
    | rst =>
      rw [step_of_rst hq] at h
      cases h
      exact (hs.withRequests rest).hardReset

/-- Settles O11. -/
theorem resetHasInv : Obligations.ResetHasInv :=
  ⟨fun _ => resetAt_inv, resetAt_inv (by decide)⟩

end Sys2Proof.Machine
end

section
/-! SUPPORT. Who writes each buffer, the table and `PAD` (spec R21 to R23, R28, R33). -/

namespace Sys2Proof.Machine

/-- Settles O17: the two shared answers write no storage, and each successful end, read field by field, writes only
what the rules list for its command. -/
theorem storageHasOnlyItsWriters : Obligations.StorageHasOnlyItsWriters := by
  intro i s t h hr
  cases exec_ends h with
  | raised => simp
  | ignored => simp
  | reset hi => exact absurd hi hr
  | rdreg => simp
  | completed _ hc => cases hc <;> simp

end Sys2Proof.Machine
end

section
/-! SUPPORT. The listed symbols of a table are its present ones (spec R25). -/

namespace Sys2Proof.Machine

open Sys2Proof.Spec

@[simp] theorem dom_cons (e : Byte × Code) (t : CodeTable) : dom (e :: t) = e.1 :: dom t := rfl

@[simp] theorem dom_length (t : CodeTable) : (dom t).length = tcnt t := List.length_map _

/-- In any list of entries the lookup finds exactly the listed symbols. -/
theorem codeOf_isSome_iff (t : CodeTable) (a : Byte) : (codeOf t a).isSome ↔ a ∈ dom t := by
  induction t with
  | nil => simp [dom]
  | cons e t ih =>
    rw [codeOf_cons, dom_cons, List.mem_cons, ← ih]
    by_cases h : e.1 = a
    · simp [h]
    · simp [h, Ne.symm h]

theorem dom_pairwise_lt {t : CodeTable} (h : CodeTable.canonical t = true) : (dom t).Pairwise (· < ·) := by
  induction t with
  | nil => exact .nil
  | cons e t ih =>
    obtain ⟨hlt, hc⟩ := (canonical_cons e t).1 h
    refine List.pairwise_cons.2 ⟨fun a ha => ?_, ih hc⟩
    obtain ⟨f, hf, rfl⟩ := List.mem_map.1 ha
    exact hlt f hf

theorem mem_presentSymbols_iff (t : CodeTable) (a : Byte) : a ∈ presentSymbols t ↔ a ∈ dom t := by
  have hall : a ∈ (List.range 256).map (BitVec.ofNat 8) :=
    List.mem_map.2 ⟨a.toNat, List.mem_range.2 a.isLt, by simp⟩
  rw [presentSymbols, List.mem_filter, codeOf_isSome_iff]
  exact and_iff_right hall

theorem presentSymbols_pairwise_lt (t : CodeTable) : (presentSymbols t).Pairwise (· < ·) := by
  refine List.Pairwise.filter _ (List.pairwise_map.2 (List.pairwise_lt_range.imp_of_mem fun {m n} hm hn hlt => ?_))
  have := List.mem_range.1 hm
  have := List.mem_range.1 hn
  rw [BitVec.lt_def, BitVec.toNat_ofNat, BitVec.toNat_ofNat]
  omega

theorem presentSymbols_length_le (t : CodeTable) : (presentSymbols t).length ≤ 256 := by
  simpa [presentSymbols] using List.length_filter_le (fun a => (codeOf t a).isSome)
    ((List.range 256).map (BitVec.ofNat 8))

/-- Settles O21: both lists ascend strictly and have the same members. -/
theorem tcntCountsPresentSymbols : Obligations.TcntCountsPresentSymbols := by
  intro t h
  have hdom : presentSymbols t = dom t :=
    (presentSymbols_pairwise_lt t).eq_of_mem_iff (dom_pairwise_lt h) (mem_presentSymbols_iff t)
  have hcnt : tcnt t = (presentSymbols t).length := by rw [hdom, dom_length]
  exact ⟨hdom, hcnt, hcnt ▸ presentSymbols_length_le t⟩

end Sys2Proof.Machine
end

section
/-! SUPPORT. `STATUS` field by field (spec R35). -/

namespace Sys2Proof.Machine

theorem status_getLsbD_of_ge (s : State) {j : Nat} (h : 16 ≤ j) : (status s).getLsbD j = false := by
  rw [status_getLsbD, BitVec.getLsbD_of_ge s.err j (by omega)]
  have hflag : ∀ k, k < 16 → decide (j = k) = false := fun k hk => decide_eq_false (by omega)
  simp [hflag]

theorem status_err (s : State) : (status s).extractLsb' 0 8 = s.err := by
  apply BitVec.eq_of_getLsbD_eq
  intro j hj
  rw [BitVec.getLsbD_extractLsb', Nat.zero_add, status_getLsbD]
  have hflag : ∀ k, 8 ≤ k → decide (j = k) = false := fun k hk => decide_eq_false (by omega)
  simp [hj, hflag]

theorem status_reserved (s : State) : (status s).extractLsb' 16 16 = 0#16 := by
  apply BitVec.eq_of_getLsbD_eq
  intro j _
  simp [status_getLsbD_of_ge]

theorem status_resetAt {c : Capacities} (hc : c.wf) : status (State.resetAt c) = 0x00000F00#32 := by
  obtain ⟨⟨hi, _⟩, ⟨ho, _⟩, ⟨hb, _⟩⟩ := hc
  have ifull_false : ifull (State.resetAt c) = false := decide_eq_false (Nat.ne_of_lt hi)
  have ofull_false : ofull (State.resetAt c) = false := decide_eq_false (Nat.ne_of_lt ho)
  have bfull_false : bfull (State.resetAt c) = false := decide_eq_false (Nat.ne_of_lt hb)
  calc status (State.resetAt c)
      = (0#8).setWidth 32 ||| flagBit 8 true ||| flagBit 9 true ||| flagBit 10 true ||| flagBit 11 true |||
          flagBit 12 false ||| flagBit 13 false ||| flagBit 14 false ||| flagBit 15 false := by
        rw [status, ifull_false, ofull_false, bfull_false]; rfl
    _ = 0x00000F00#32 := by decide

/-- Settles O19: at each of the bits 8 to 15 of `status_getLsbD` one flag is left. -/
theorem statusFields : Obligations.StatusFields := by
  refine ⟨fun s => ?_, fun _ => status_resetAt⟩
  refine ⟨status_err s, ?_, ?_, ?_, ?_, ?_, ?_, ?_, ?_, status_reserved s⟩
  all_goals rw [status_getLsbD]; simp [iempty, oempty, bempty, tempty, ifull, ofull, bfull, tfull]

end Sys2Proof.Machine
end

section
/-! SUPPORT. The word of `RDREG` and what it reads (spec R34, R79, R103). -/

namespace Sys2Proof.Machine

/-- The word of an opcode and an operand byte is their sum, R80. -/
theorem mkWord_zero_add_imm (op imm : Byte) : mkWord op 0#8 + imm.setWidth 16 = mkWord op imm := by
  apply BitVec.eq_of_toNat_eq
  have := op.isLt
  have := imm.isLt
  simp [mkWord]

theorem readReg_reserved {r : Byte} (h : 0x0A ≤ r.toNat) (s : State) : readReg r s = 0#32 := by
  have hne : ∀ k, k < 0x0A → r ≠ BitVec.ofNat 8 k := by
    rintro k hk rfl
    rw [BitVec.toNat_ofNat] at h
    omega
  simp [readReg, hne]

/-- Settles O20: the word's two fields are opcode and register number, and `REG` is read register by register. -/
theorem rdregAnswersRegister : Obligations.RdregAnswersRegister := by
  refine ⟨fun r => ?_, fun s => ⟨?_, fun r h => ?_⟩⟩
  · have h : 0x0200#16 = mkWord 0x02#8 0#8 := by decide
    rw [h, mkWord_zero_add_imm, decode_mkWord]
    rfl
  · simp only [List.forall_mem_cons]
    simp [exec, execRdreg, respond, readReg, zext32]
  · rw [exec, execRdreg, readReg_reserved h]
    rfl

end Sys2Proof.Machine
end

section
/-! SUPPORT. The MSB-first order of opened bytes, and the two inverse laws (spec R12, R52). -/

namespace Sys2Proof.Machine

theorem bytesOfBits_bitsOfBytes (b : Bytes) : bytesOfBits (bitsOfBytes b) = b := by
  simpa [bytesOfBits] using bytesOfBits_bitsOfBytes_append b []

theorem bitsOfBytes_bytesOfBits {s : Bits} (h : s.length % 8 = 0) : bitsOfBytes (bytesOfBits s) = s := by
  obtain ⟨b, rfl⟩ := exists_bytes_of_length_mod s h
  rw [bytesOfBits_bitsOfBytes]

theorem bitsOfBytes_getElem? {b : Bytes} {j k : Nat} {v : Byte} (hk : k < 8) (hv : b[j]? = some v) :
    (bitsOfBytes b)[8 * j + k]? = some (v.getLsbD (7 - k)) := by
  induction b generalizing j with
  | nil => cases hv
  | cons w b ih =>
    rw [bitsOfBytes_cons]
    cases j with
    | zero =>
      obtain rfl : w = v := by simpa using hv
      rw [Nat.mul_zero, Nat.zero_add, List.getElem?_append_left (by simpa using hk), bitsOfByte_getElem? w k hk]
    | succ j =>
      have hskip : 8 * (j + 1) + k - (bitsOfByte w).length = 8 * j + k := by rw [bitsOfByte_length]; omega
      rw [List.getElem?_append_right (by rw [bitsOfByte_length]; omega), hskip]
      exact ih (by simpa using hv)

/-- Settles O42: the position law goes by induction over the bytes; a sequence of whole bytes is opened bytes. -/
theorem bitOrderIsMsbFirst : Obligations.BitOrderIsMsbFirst :=
  ⟨fun _ _ _ _ => bitsOfBytes_getElem?,
    fun b => ⟨bitsOfBytes_length b, bytesOfBits_bitsOfBytes b⟩,
    fun _ => bitsOfBytes_bytesOfBits⟩

end Sys2Proof.Machine
end

section
/-! SUPPORT. Decoder and encoder as inverses, and the decoder as the opcode map (spec R72, R76 to R78). -/

namespace Sys2Proof

theorem decode_encode_pushb (b : Byte) : decode (encode (.pushb b)) = decodeImm1 .pushb b := decode_mkWord _ _

/-- Settles O1: the two fields of an encoded command come back, and only `PUSHB`'s row looks at its operand. -/
theorem decodeOfEncode : Obligations.DecodeOfEncode := by
  intro i
  cases i
  case pushb b =>
    rw [decode_encode_pushb]
    by_cases hb : b.toNat < 2 <;> simp [decodeImm1, Instr.wf, hb]
  all_goals exact iff_of_true (decode_mkWord _ _) rfl

theorem decode_encode_of_wf {i : Instr} (h : i.wf = true) : decode (encode i) = some i := (decodeOfEncode i).2 h

theorem decodeSys0_eq_some_iff {i j : Instr} {imm : Byte} : decodeSys0 j imm = some i ↔ imm = 0#8 ∧ j = i := by
  simp [decodeSys0]

theorem decodeImm1_eq_some_iff {f : Byte → Instr} {i : Instr} {imm : Byte} :
    decodeImm1 f imm = some i ↔ imm.toNat < 2 ∧ f imm = i := by
  simp [decodeImm1]

/-- The inversion of the opcode map: what two fields decode to is well formed, and its word has those fields. -/
theorem decodeFields_eq_some {op imm : Byte} {i : Instr} (h : decodeFields op imm = some i) :
    i.wf = true ∧ encode i = mkWord op imm := by
  unfold decodeFields at h
  split at h
  case h_3 | h_4 | h_12 | h_13 => cases h; exact ⟨rfl, rfl⟩
  case h_5 =>
    obtain ⟨hb, rfl⟩ := decodeImm1_eq_some_iff.1 h
    exact ⟨by simpa [Instr.wf] using hb, rfl⟩
  case h_20 => cases h
  all_goals
    obtain ⟨rfl, rfl⟩ := decodeSys0_eq_some_iff.1 h
    exact ⟨rfl, rfl⟩

/-- Settles O2: a word is made of its two fields. -/
theorem encodeOfDecode : Obligations.EncodeOfDecode := by
  intro w i h
  obtain ⟨hwf, hword⟩ := decodeFields_eq_some h
  exact ⟨hwf, hword.trans (mkWord_fields w)⟩

/-- The family of `Laws.EncodeMatchesRow` over all commands. -/
theorem encode_matches_row (i : Instr) : Laws.EncodeMatchesRow.Statement i := by
  cases i
  case nop => exact Laws.EncodeMatchesRow.nop
  case reset => exact Laws.EncodeMatchesRow.reset
  case rdreg r => exact Laws.EncodeMatchesRow.rdreg r
  case pushi v => exact Laws.EncodeMatchesRow.pushi v
  case pushb b => exact Laws.EncodeMatchesRow.pushb b
  case popo => exact Laws.EncodeMatchesRow.popo
  case popb => exact Laws.EncodeMatchesRow.popb
  case clri => exact Laws.EncodeMatchesRow.clri
  case clro => exact Laws.EncodeMatchesRow.clro
  case clrb => exact Laws.EncodeMatchesRow.clrb
  case tblclr => exact Laws.EncodeMatchesRow.tblclr
  case tblset s => exact Laws.EncodeMatchesRow.tblset s
  case tblget s => exact Laws.EncodeMatchesRow.tblget s
  case ldtbl => exact Laws.EncodeMatchesRow.ldtbl
  case sttbl => exact Laws.EncodeMatchesRow.sttbl
  case pack => exact Laws.EncodeMatchesRow.pack
  case unpack => exact Laws.EncodeMatchesRow.unpack
  case encode => exact Laws.EncodeMatchesRow.encode
  case decode => exact Laws.EncodeMatchesRow.decode

/-- The rows by format (R72). A `SYS0` row has one word; an `IMM8` row leaves the operand byte out; the `IMM1` row is
that of `PUSHB`. -/
theorem row_formats : ∀ row ∈ opcodeRows,
    (row.mask = 0xFFFF#16 ∧ (decode row.pattern).map Instr.mnemonic = some row.mnemonic) ∨
    row ∈ [(⟨"RDREG", mkWord 0x02#8 0#8, 0xFF00#16⟩ : OpcodeRow), ⟨"PUSHI", mkWord 0x10#8 0#8, 0xFF00#16⟩,
      ⟨"TBLSET", mkWord 0x21#8 0#8, 0xFF00#16⟩, ⟨"TBLGET", mkWord 0x22#8 0#8, 0xFF00#16⟩] ∨
    row = ⟨"PUSHB", mkWord 0x11#8 0#8, 0xFFFE#16⟩ := by decide

theorem opField_mask_of_row : ∀ row ∈ opcodeRows, opField row.mask = 0xFF#8 := by decide

/-- A word that selects a row has the row's opcode. -/
theorem opField_of_selects {w : CommandWord} {row : OpcodeRow} (hrow : row ∈ opcodeRows)
    (h : w &&& row.mask = row.pattern) : opField w = opField row.pattern := by
  rw [← h, opField_and, opField_mask_of_row row hrow, imm_and_sys0]

theorem decode_eq_decodeFields {w : CommandWord} {op : Byte} (h : opField w = op) :
    decode w = decodeFields op (immField w) := by
  rw [decode, h]

/-- A word that selects a row decodes to a command of the row's name. -/
theorem mnemonic_of_selects {w : CommandWord} {row : OpcodeRow} (hrow : row ∈ opcodeRows)
    (h : w &&& row.mask = row.pattern) : (decode w).map Instr.mnemonic = some row.mnemonic := by
  have hop := opField_of_selects hrow h
  rcases row_formats row hrow with ⟨hmask, hdec⟩ | himm8 | rfl
  · have hw : w = row.pattern := by rw [← h, hmask]; exact BitVec.and_allOnes.symm
    rw [hw, hdec]
  · simp only [List.mem_cons, List.not_mem_nil, or_false] at himm8
    rcases himm8 with rfl | rfl | rfl | rfl <;>
      rw [decode_eq_decodeFields (hop.trans (opField_mkWord _ _))] <;> rfl
  · have himm : (immField w).toNat < 2 := (imm_and_imm1 _).1 ((row_iff _ _ _).1 h).2
    rw [decode_eq_decodeFields (hop.trans (opField_mkWord _ _))]
    exact congrArg _ (if_pos himm)

/-- Settles O3: a decoded word is its command's encoding, which matches the command's row; a word that selects a row
has the row's opcode, and no two rows have one opcode. -/
theorem decoderFollowsOpcodeMap : Obligations.DecoderFollowsOpcodeMap := by
  refine ⟨fun w m => ⟨?_, ?_⟩, ?_⟩
  · rintro ⟨i, hi, rfl⟩
    obtain ⟨hwf, rfl⟩ := encodeOfDecode w i hi
    exact encode_matches_row i hwf
  · rintro ⟨row, hrow, rfl, h⟩
    exact Option.map_eq_some_iff.1 (mnemonic_of_selects hrow h)
  · have hop : opcodeRows.Pairwise fun a b => opField a.pattern ≠ opField b.pattern := by decide
    refine hop.imp_of_mem fun ha hb hne w ⟨hwa, hwb⟩ => hne ?_
    rw [← opField_of_selects ha hwa, opField_of_selects hb hwb]

/-- Settles O4. -/
theorem writtenWordsDecode : Obligations.WrittenWordsDecode := by
  unfold Obligations.WrittenWordsDecode
  decide

end Sys2Proof
end

section
/-! SUPPORT. The transaction and the step: the four steps of R73, and what every step keeps (spec R6, R70, R73, R220). -/

namespace Sys2Proof.Machine

open Sys2Proof.Spec

/-- The fault entry of the model is the one written from R207. -/
theorem raise_eq_faulted (f : FaultKind) (info : Nat) (s : State) : raise f info s = faulted f.code.toNat info s := by
  simp [raise, faulted, zext32]

/-- R208 for a word: in FAULTED every word but that of `RESET` and those of `RDREG` is ignored. -/
theorem transact_in_faulted {w : CommandWord} {s : State} (h : s.err ≠ 0#8) (hr : decode w ≠ some .reset)
    (hd : ∀ r, decode w ≠ some (.rdreg r)) : transact w s = .next (answerFaulted s) := by
  cases hw : decode w with
  | none => rw [transact_of_illegal hw, illegalWord_of_faulted h]
  | some i =>
    rw [transact_of_decode hw]
    exact exec_in_faulted i s h (fun hi => hr (hi ▸ hw)) (fun r hi => hd r (hi ▸ hw))

/-- The two ends of R73 step 4 as R73 words them. -/
theorem endsWell_cases {s t : State} (h : endsWell s t) :
    (t.err = 0#8 ∧ ∃ d, t.rsp = some ⟨0#8, d⟩) ∨
      ∃ (f : FaultKind) (info : Nat), t = faulted f.code.toNat info s := by
  rcases h with ⟨herr, -, -, -, hrsp⟩ | ⟨f, info, rfl⟩
  · exact .inl ⟨herr, hrsp⟩
  · exact .inr ⟨f, info, raise_eq_faulted f info s⟩

/-- Settles O7: `RESET` first, then the FAULTED check, then the legality of the word, then the command's two ends. -/
theorem transactionOrder : Obligations.TransactionOrder := by
  intro w s
  refine ⟨?_, fun hw h => ⟨fun r hr => ?_, fun hr => ?_⟩, fun h hw => ?_, fun h i hi => ?_⟩
  · rintro rfl
    rfl
  · rw [transact_of_decode hr]
    rfl
  · exact transact_in_faulted h (fun hreset => hw (encodeOfDecode w _ hreset).2.symm) hr
  · rw [transact_of_illegal hw, illegalWord_of_ready h, raise_eq_faulted]
    rfl
  · rw [transact_of_decode hi]
    by_cases hreset : i = .reset
    · subst hreset
      exact ⟨_, rfl, rfl, .inl ⟨rfl, _, rfl⟩⟩
    · obtain ⟨t, ht, hend⟩ := exec_in_ready i s h hreset
      exact ⟨t, ht, ht, endsWell_cases hend⟩

theorem step_withFetchWord {s : State} {w : Nat} (hw : w < 2 ^ 16) :
    step (s.withFetchWord 16 w) = transact (BitVec.ofNat 16 w) s := by
  rw [State.withFetchWord, presentWord, Nat.mod_eq_of_lt hw]
  rfl

/-- Settles O6. -/
theorem stepRunsPresentedCommand : Obligations.StepRunsPresentedCommand := by
  refine ⟨fun s w i rest hq hi => ?_, fun s w i hw hi => ?_, fun s => step_of_idle⟩
  · rw [step_of_command hq, transact_of_decode hi]
  · rw [step_withFetchWord hw, transact_of_decode hi]

/-- R73: `exec` is total. -/
theorem exec_total (i : Instr) (s : State) : ∃ t, exec i s = .next t := by
  cases i <;> exact ⟨_, rfl⟩

/-- No command writes the capacities or the host's queue, `RESET` included. -/
theorem Ends.keeps_host {s t : State} {i : Instr} (h : Ends s i t) : t.cap = s.cap ∧ t.requests = s.requests := by
  cases h with
  | raised => simp
  | ignored => simp
  | reset => simp
  | rdreg => simp
  | completed _ hc => cases hc <;> simp

theorem illegalWord_keeps_host (w : CommandWord) (s : State) :
    (illegalWord w s).cap = s.cap ∧ (illegalWord w s).requests = s.requests := by
  by_cases h : s.err = 0#8
  · simp [illegalWord_of_ready h]
  · simp [illegalWord_of_faulted h]

/-- R73: a transaction answers a next state for every word, with the same capacities and the same queue. -/
theorem transact_total (w : CommandWord) (s : State) :
    ∃ t, transact w s = .next t ∧ t.cap = s.cap ∧ t.requests = s.requests := by
  cases hw : decode w with
  | none => exact ⟨_, transact_of_illegal hw s, illegalWord_keeps_host w s⟩
  | some i =>
    obtain ⟨t, ht⟩ := exec_total i s
    exact ⟨t, (transact_of_decode hw s).trans ht, (exec_ends ht).keeps_host⟩

/-- Settles O16: a step is idle, a pulse of `rst` or a transaction. -/
theorem stepKeepsCapacities : Obligations.StepKeepsCapacities := by
  intro s
  cases hq : s.requests with
  | nil => exact ⟨s, step_of_idle hq, rfl, hq⟩
  | cons a rest =>
    cases a with
    | command w =>
      rw [step_of_command hq]
      exact transact_total w { s with requests := rest }
    | rst => exact ⟨_, step_of_rst hq, rfl, rfl⟩

end Sys2Proof.Machine
end

section
/-! SUPPORT. A packed code and the size of a metadata block (spec R85, R86, R88). -/

namespace Sys2Proof.Machine

theorem unpackCode_packCode (c : Code) : unpackCode (packCode c) c.length = c := by
  rw [unpackCode, bitsOfBytes_packCode, List.take_left]

/-- Settles O43. -/
theorem unpackCodeOfPackCode : Obligations.UnpackCodeOfPackCode := by
  refine ⟨fun c => ⟨packCode_length c, bitsOfBytes_packCode c, unpackCode_packCode c⟩, fun _ _ => rfl, ?_⟩
  decide

@[simp] theorem entryBytes_length (e : Byte × Code) : (entryBytes e).length = 2 + ceil8 e.2.length := by
  simp [entryBytes]
  omega

theorem serialize_length (t : CodeTable) :
    (serialize t).length = 5 + (t.map fun e => 2 + ceil8 e.2.length).sum := by
  simp [serialize, Config.magic, List.length_flatMap]
  omega

/-- R88: an entry of a table of the unit has 3 to 34 bytes. -/
theorem entry_size_bounds {t : CodeTable} (h : CodeTable.wf t = true) :
    ∀ n ∈ t.map fun e => 2 + ceil8 e.2.length, 3 ≤ n ∧ n ≤ 34 := by
  intro n hn
  obtain ⟨e, he, rfl⟩ := List.mem_map.1 hn
  have := ((wf_iff t).1 h).2 e he
  unfold ceil8
  omega

theorem tcnt_le_of_wf {t : CodeTable} (h : CodeTable.wf t = true) : tcnt t ≤ 256 :=
  (tcntCountsPresentSymbols t ((wf_iff t).1 h).1).2.2

/-- Settles O35: 1 to 256 entries of 3 to 34 bytes. -/
theorem serializeSize : Obligations.SerializeSize := by
  intro t hwf hne
  have hlow := List.card_nsmul_le_sum _ 3 fun n hn => (entry_size_bounds hwf n hn).1
  have hhigh := List.sum_le_card_nsmul _ 34 fun n hn => (entry_size_bounds hwf n hn).2
  rw [List.length_map, smul_eq_mul] at hlow hhigh
  have hcnt : t.length ≤ 256 := tcnt_le_of_wf hwf
  have hne' : 1 ≤ t.length := hne
  refine ⟨serialize_length t, ?_, ?_⟩ <;> rw [serialize_length] <;> omega

end Sys2Proof.Machine
end

section
/-! SUPPORT. What a line of assembly expands to (spec R80, R81). -/

namespace Sys2Proof.Machine

theorem sys0Commands_wf : ∀ i ∈ sys0Commands, i.wf = true := by decide

/-- R81: what a command line gives is a legal command. -/
theorem commandLine_wf {m : List Char} {args : List Token} {i : Instr} (h : commandLine m args = some (.command i)) :
    i.wf = true := by
  unfold commandLine at h
  split at h
  · obtain ⟨_, hi, ⟨⟩⟩ := Option.map_eq_some_iff.1 h
    exact sys0Commands_wf _ (List.mem_of_find?_eq_some hi)
  · split at h
    · cases h
    · split at h
      · cases h
      · split at h
        · next hwf => cases h; exact hwf
        · cases h
  · cases h

/-- A line that is a single command is a command line: every other first word gives an item of its own kind. -/
theorem lineItem_eq_command {ts : List Token} {i : Instr} (h : lineItem ts = some (some (.command i))) :
    ∃ m args, commandLine m args = some (.command i) := by
  unfold lineItem at h
  split at h
  · cases h
  · next m args =>
    split_ifs at h
    · simp at h
    · split at h <;> simp at h
    · split at h <;> simp at h
    · split at h <;> simp at h
    · simp at h
    · split at h
      · split at h
        · split at h <;> simp at h
        · simp at h
      · simp at h
    · exact ⟨m, args, by simpa using h⟩
  · cases h

theorem assembleLine_command_wf {line : List Char} {i : Instr} (h : assembleLine line = some (some (.command i))) :
    i.wf = true := by
  obtain ⟨ts, -, hts⟩ := Option.bind_eq_some_iff.1 h
  obtain ⟨m, args, hcmd⟩ := lineItem_eq_command hts
  exact commandLine_wf hcmd

theorem pushb_bit_wf (b : Bool) : (Instr.pushb (if b then 1#8 else 0#8)).wf = true := by cases b <;> rfl

theorem mem_pushbWords {s : Bits} {w : CommandWord} (h : w ∈ pushbWords s) : ∃ i, i.wf = true ∧ encode i = w := by
  obtain ⟨b, -, rfl⟩ := List.mem_map.1 h
  exact ⟨_, pushb_bit_wf b, rfl⟩

/-- The expansion column of R81: but for `.word` and a single command, every word is that of a legal command. -/
theorem mem_expand {item : AsmItem} {w : CommandWord} (h : w ∈ item.expand) :
    (∃ v, item = .word v) ∨ (∃ i, item = .command i ∧ encode i = w) ∨ ∃ i, i.wf = true ∧ encode i = w := by
  cases item with
  | word v => exact .inl ⟨v, rfl⟩
  | command i => exact .inr (.inl ⟨i, rfl, (List.mem_singleton.1 h).symm⟩)
  | bytes b =>
    obtain ⟨v, -, rfl⟩ := List.mem_map.1 h
    exact .inr (.inr ⟨.pushi v, rfl, rfl⟩)
  | bitstr s => exact .inr (.inr (mem_pushbWords h))
  | setcode sym s =>
    rcases List.mem_append.1 h with h | h
    · rcases List.mem_cons.1 h with rfl | h
      · exact .inr (.inr ⟨.clrb, rfl, rfl⟩)
      · exact .inr (.inr (mem_pushbWords h))
    · exact .inr (.inr ⟨.tblset sym, rfl, (List.mem_singleton.1 h).symm⟩)
  | drain n => exact .inr (.inr ⟨.popo, rfl, (List.eq_of_mem_replicate h).symm⟩)
  | status => exact .inr (.inr ⟨.rdreg 0x00#8, rfl, (List.mem_singleton.1 h).symm⟩)

/-- Settles O54: every other line expands to words of legal commands, and those decode (R72). -/
theorem onlyDotWordIsIllegal : Obligations.OnlyDotWordIsIllegal := by
  intro line item w hline hw hillegal
  rcases mem_expand hw with hword | ⟨i, rfl, rfl⟩ | ⟨i, hwf, rfl⟩
  · exact hword
  · cases hillegal.symm.trans (decode_encode_of_wf (assembleLine_command_wf hline))
  · cases hillegal.symm.trans (decode_encode_of_wf hwf)

end Sys2Proof.Machine
end

section
/-! SUPPORT. A command that can complete does, and the run of `SETCODE` (spec R73, R81, R234). -/

namespace Sys2Proof.Machine

open Sys2Proof.Spec

/-- The converse of `exec_ends` in READY: a command whose guard holds ends as `Completes` says. -/
theorem exec_of_completes {s t : State} {i : Instr} (hs : s.err = 0#8) (h : Completes s i t) : exec i s = .next t := by
  cases h <;> rw [exec]
  all_goals refine (whenReady_of_ready hs _).trans (congrArg Host.Outcome.next ?_)
  case pushi room => exact if_neg room
  case pushb legal room => exact (if_neg (Nat.not_le.2 legal)).trans (if_neg room)
  case popo head => simp only [head]
  case popb head => simp only [head]
  case tblset pos le => exact if_neg (not_or.2 ⟨Nat.ne_of_gt pos, Nat.not_lt.2 le⟩)
  case tblgetAbsent absent => simp only [absent]
  case tblget present fits => simp only [present, appendBits_of_fits fits]
  case ldtbl block => simp only [block]
  case sttbl nonempty fits => exact (if_neg nonempty).trans (appendObuf_of_fits fits _)
  case pack fits => exact appendObuf_of_fits fits _
  case unpack payload fits => simp only [payload, appendBits_of_fits fits]
  case encode codes fits => simp only [codes, appendBits_of_fits fits]
  case decode prefixCode symbols fits =>
    simp only [prefixCode, Bool.true_eq_false, if_false, symbols, appendObuf_of_fits fits]
  all_goals rfl

/-- A legal command at the head of the queue that can complete does so in the next step. -/
theorem run_of_completes {s t : State} {i : Instr} {rest : List HostAction} (hi : i.wf = true)
    (hq : s.requests = .command (encode i) :: rest) (hs : s.err = 0#8)
    (h : Completes { s with requests := rest } i t) (k : Nat) : core.run (k + 1) s = core.run k t := by
  refine run_succ_of_step ?_ k
  rw [step_of_command hq, transact_of_decode (decode_encode_of_wf hi)]
  exact exec_of_completes hs h

/-- The model's successful response is that of R73 step 4. -/
theorem respond_eq_answered {s : State} (hs : s.err = 0#8) (n : Nat) : respond (zext32 n) s = answered n s := by
  simp [respond, answered, zext32, hs]

theorem bitOperand_of_bool (b : Bool) : bitOperand (if b then 1#8 else 0#8) = b := by cases b <;> rfl

section
variable {s : State} {rest : List HostAction} (hs : s.err = 0#8) (k : Nat)
include hs

theorem run_clrb (hq : s.requests = .command (encode .clrb) :: rest) :
    core.run (k + 1) s = core.run k (respond 0#32 { s with bits := [], requests := rest }) :=
  run_of_completes rfl hq hs .clrb k

theorem run_pushb (b : Bool) (hroom : s.bits.length ≠ s.cap.bits)
    (hq : s.requests = .command (encode (.pushb (if b then 1#8 else 0#8))) :: rest) :
    core.run (k + 1) s = core.run k (respond 0#32 { s with bits := s.bits ++ [b], requests := rest }) := by
  have legal : (if b then 1#8 else 0#8 : Byte).toNat < 2 := of_decide_eq_true (pushb_bit_wf b)
  have hrun := run_of_completes (pushb_bit_wf b) hq hs (.pushb _ legal hroom) k
  rwa [bitOperand_of_bool] at hrun

theorem run_tblset (a : Byte) (hpos : 1 ≤ s.bits.length) (hle : s.bits.length ≤ 255)
    (hq : s.requests = .command (encode (.tblset a)) :: rest) :
    core.run (k + 1) s = core.run k
      (answered s.bits.length { s with ct := putCode s.ct a s.bits, bits := [], requests := rest }) := by
  rw [run_of_completes rfl hq hs (.tblset a hpos hle) k, respond_eq_answered]
  exact hs

end

/-- R81: with room, the words of a bit string append its bits; of the rest only the response may change. -/
theorem run_pushbWords (c : Bits) (s : State) (rest : List HostAction) (k : Nat) (hs : s.err = 0#8)
    (hroom : s.bits.length + c.length ≤ s.cap.bits)
    (hq : s.requests = (pushbWords c).map HostAction.command ++ rest) :
    ∃ r, core.run (c.length + k) s = core.run k { s with bits := s.bits ++ c, requests := rest, rsp := r } := by
  induction c generalizing s with
  | nil =>
    obtain rfl : s.requests = rest := hq
    exact ⟨s.rsp, by simp⟩
  | cons b c ih =>
    rw [List.length_cons] at hroom
    have hpush := run_pushb hs (c.length + k) b (by omega) hq
    obtain ⟨r, hr⟩ := ih (respond 0#32 { s with bits := s.bits ++ [b], requests := _ }) hs (by simp; omega) rfl
    refine ⟨r, ?_⟩
    rw [List.length_cons, Nat.add_right_comm]
    exact hpush.trans (hr.trans (by simp))

/-- Settles O55: `CLRB` empties `BITS`, the pushes fill it with the code, and `TBLSET` stores it. -/
theorem setcodeStoresExactCode : Obligations.SetcodeStoresExactCode := by
  intro s a c hs hpos hle hroom hq
  have hclear := run_clrb (rest := (pushbWords c).map HostAction.command ++ [.command (encode (.tblset a))]) hs
    (c.length + 1) (by simp [hq, AsmItem.expand])
  obtain ⟨r, hpush⟩ := run_pushbWords c (respond 0#32 { s with
      bits := [], requests := (pushbWords c).map HostAction.command ++ [.command (encode (.tblset a))] })
    [.command (encode (.tblset a))] 1 hs (by simpa using hroom) rfl
  have hstore := run_tblset (s := { s with bits := c, requests := [.command (encode (.tblset a))], rsp := r })
    hs 0 a hpos hle rfl
  exact ⟨putCode s.ct a c, codeOf_putCode s.ct a c, hclear.trans (hpush.trans hstore)⟩

end Sys2Proof.Machine
end

section
/-! SUPPORT. The words of `NOP` and `RESET` and what they do (spec R39, R77, R78, R101, R102). -/

namespace Sys2Proof.Machine

open Sys2Proof.Spec

/-- Format `SYS0` of R72 and R78: an operand byte other than 0 makes the word illegal. -/
theorem decodeSys0_of_ne (i : Instr) {imm : Byte} (h : imm ≠ 0#8) : decodeSys0 i imm = none := if_neg h

theorem decode_nop_neighbour {b : Byte} (h : b ≠ 0#8) : decode (b.setWidth 16) = none := by
  have hword : b.setWidth 16 = mkWord 0x00#8 b := (BitVec.zero_add _).symm.trans (mkWord_zero_add_imm 0x00#8 b)
  rw [hword, decode_mkWord]
  exact decodeSys0_of_ne .nop h

theorem decode_reset_neighbour {b : Byte} (h : b ≠ 0#8) : decode (0x0100#16 + b.setWidth 16) = none := by
  have hword : 0x0100#16 + b.setWidth 16 = mkWord 0x01#8 b := mkWord_zero_add_imm 0x01#8 b
  rw [hword, decode_mkWord]
  exact decodeSys0_of_ne .reset h

/-- R34: the registers `ICNT`, `OCNT`, `BCNT` and `TCNT` read 0 after reset. -/
theorem readReg_counts_resetAt (c : Capacities) :
    ∀ r ∈ [0x03#8, 0x04#8, 0x05#8, 0x06#8], readReg r (State.resetAt c) = 0#32 := by
  simp only [List.forall_mem_cons]
  exact ⟨rfl, rfl, rfl, rfl, List.forall_mem_nil _⟩

/-- R102: no part of the state's mode or storage enters the answer of `RESET`. -/
theorem exec_reset (s : State) :
    exec .reset s = .next { State.resetAt s.cap with requests := s.requests, rsp := some ⟨0#8, 0#32⟩ } := rfl

/-- Settles O8. -/
theorem resetValues : Obligations.ResetValues := by
  refine ⟨decode_encode_of_wf (i := .reset) rfl, fun _ => decode_reset_neighbour, fun c => ?_,
    ⟨Config.capacities, rfl⟩, exec_reset⟩
  exact ⟨rfl, rfl, rfl, fun _ => rfl, rfl, rfl, rfl, status_resetAt, readReg_counts_resetAt c⟩

/-- Settles O22: in READY `NOP` completes, in FAULTED it is ignored. -/
theorem nopAnswersZero : Obligations.NopAnswersZero := by
  refine ⟨decode_encode_of_wf (i := .nop) rfl, fun _ => decode_nop_neighbour, fun s => ⟨fun hs => ?_, fun hs => ?_⟩⟩
  · exact (exec_of_completes hs .nop).trans (congrArg _ (respond_eq_answered hs 0))
  · exact exec_in_faulted .nop s hs (by decide) (by simp)

end Sys2Proof.Machine
end

section
/-! SUPPORT. The buffer access commands: their faults, and that they see neither `CT` nor `PAD` (spec R111 to R118). -/

namespace Sys2Proof.Machine

open Sys2Proof.Spec

/-- The commands of 41_buffer_access.md. -/
def IsBufferAccess (i : Instr) : Prop :=
  (∃ v, i = .pushi v) ∨ (∃ b, i = .pushb b) ∨ i = .popo ∨ i = .popb ∨ i = .clri ∨ i = .clro ∨ i = .clrb

/-- The faults of the buffer access commands in READY, each with its guard and its `ERRINFO` (R111 to R114). With
`Completes` these are all their ends in READY: `completes_or_bufferFault`. -/
inductive BufferFault (s : State) : Instr → FaultKind → Nat → Prop
  | pushi (v : Byte) (full : s.ibuf.length = s.cap.ibuf) : BufferFault s (.pushi v) .bufferError s.ibuf.length
  | pushbIllegal (b : Byte) (illegal : 2 ≤ b.toNat) :
      BufferFault s (.pushb b) .illegalCommand (encode (.pushb b)).toNat
  | pushb (b : Byte) (legal : b.toNat < 2) (full : s.bits.length = s.cap.bits) :
      BufferFault s (.pushb b) .bufferError s.bits.length
  | popo (empty : s.obuf = []) : BufferFault s .popo .bufferError 0
  | popb (empty : s.bits = []) : BufferFault s .popb .bufferError 0

section
variable {s t : State} {i : Instr} {f : FaultKind} {info : Nat}

theorem exec_of_bufferFault (hs : s.err = 0#8) (h : BufferFault s i f info) : exec i s = .next (raise f info s) := by
  cases h <;> rw [exec]
  all_goals refine (whenReady_of_ready hs _).trans (congrArg Host.Outcome.next ?_)
  case pushi full => exact if_pos full
  case pushbIllegal illegal => exact (if_pos illegal).trans (illegalWord_of_ready hs _)
  case pushb legal full => exact (if_neg (Nat.not_le.2 legal)).trans (if_pos full)
  case popo empty => simp only [empty]
  case popb empty => simp only [empty]

theorem completes_or_bufferFault (hi : IsBufferAccess i) (s : State) :
    (∃ t, Completes s i t) ∨ ∃ f info, BufferFault s i f info := by
  obtain ⟨v, rfl⟩ | ⟨b, rfl⟩ | rfl | rfl | rfl | rfl | rfl := hi
  · by_cases full : s.ibuf.length = s.cap.ibuf
    · exact .inr ⟨_, _, .pushi v full⟩
    · exact .inl ⟨_, .pushi v full⟩
  · by_cases legal : b.toNat < 2
    · by_cases full : s.bits.length = s.cap.bits
      · exact .inr ⟨_, _, .pushb b legal full⟩
      · exact .inl ⟨_, .pushb b legal full⟩
    · exact .inr ⟨_, _, .pushbIllegal b (Nat.le_of_not_lt legal)⟩
  · cases hobuf : s.obuf with
    | nil => exact .inr ⟨_, _, .popo hobuf⟩
    | cons v rest => exact .inl ⟨_, .popo v rest hobuf⟩
  · cases hbits : s.bits with
    | nil => exact .inr ⟨_, _, .popb hbits⟩
    | cons b rest => exact .inl ⟨_, .popb b rest hbits⟩
  · exact .inl ⟨_, .clri⟩
  · exact .inl ⟨_, .clro⟩
  · exact .inl ⟨_, .clrb⟩

/-- A command that completes leaves `ERR` alone. -/
theorem Completes.err_eq (h : Completes s i t) : t.err = s.err := by cases h <;> rfl

/-- R201: `BufferError` is 4 and `IllegalCommand` is 5. -/
theorem BufferFault.code_eq (h : BufferFault s i f info) : f.code = 4#8 ∨ f.code = 5#8 := by
  cases h with
  | pushbIllegal => exact .inr rfl
  | pushi | pushb | popo | popb => exact .inl rfl

theorem Completes.withTable (h : Completes s i t) (hi : IsBufferAccess i) (ct : CodeTable) (pad : BitVec 4) :
    Completes { s with ct := ct, pad := pad } i { t with ct := ct, pad := pad } := by
  obtain ⟨v, rfl⟩ | ⟨b, rfl⟩ | rfl | rfl | rfl | rfl | rfl := hi
  · cases h with | pushi v room => exact .pushi v room
  · cases h with | pushb b legal room => exact .pushb b legal room
  · cases h with | popo v rest head => exact .popo v rest head
  · cases h with | popb b rest head => exact .popb b rest head
  · cases h with | clri => exact .clri
  · cases h with | clro => exact .clro
  · cases h with | clrb => exact .clrb

theorem BufferFault.withTable (h : BufferFault s i f info) (ct : CodeTable) (pad : BitVec 4) :
    BufferFault { s with ct := ct, pad := pad } i f info := by
  cases h with
  | pushi v full => exact .pushi v full
  | pushbIllegal b illegal => exact .pushbIllegal b illegal
  | pushb b legal full => exact .pushb b legal full
  | popo empty => exact .popo empty
  | popb empty => exact .popb empty

/-- R208 for the buffer access commands. -/
theorem exec_bufferAccess_in_faulted (hi : IsBufferAccess i) (hs : s.err ≠ 0#8) :
    exec i s = .next (answerFaulted s) := by
  refine exec_in_faulted i s hs ?_ fun r => ?_ <;> rintro rfl <;> simp [IsBufferAccess] at hi

/-- R118, non-interference and the fault kinds: in FAULTED the answer is `ERR` and `ERRINFO`; in READY a completed end
and a fault, with their guards, are the same at every `CT` and `PAD`. -/
theorem exec_bufferAccess_withTable (hi : IsBufferAccess i) (h : exec i s = .next t) :
    (∀ (ct : CodeTable) (pad : BitVec 4),
      exec i { s with ct := ct, pad := pad } = .next { t with ct := ct, pad := pad }) ∧
    (s.err = 0#8 → t.err = 0#8 ∨ t.err = 4#8 ∨ t.err = 5#8) := by
  by_cases hs : s.err = 0#8
  · obtain ⟨u, hc⟩ | ⟨f, info, hf⟩ := completes_or_bufferFault hi s
    · cases h.symm.trans (exec_of_completes hs hc)
      exact ⟨fun ct pad => exec_of_completes hs (hc.withTable hi ct pad), fun _ => .inl (hc.err_eq.trans hs)⟩
    · cases h.symm.trans (exec_of_bufferFault hs hf)
      exact ⟨fun ct pad => exec_of_bufferFault hs (hf.withTable ct pad), fun _ => .inr hf.code_eq⟩
  · cases h.symm.trans (exec_bufferAccess_in_faulted hi hs)
    exact ⟨fun _ _ => exec_bufferAccess_in_faulted hi hs, fun hready => absurd hready hs⟩

end

/-- Settles O18: that `CT` and `PAD` are kept is non-interference at the values they have. -/
theorem bufferAccessIgnoresTable : Obligations.BufferAccessIgnoresTable := by
  intro i hi s t h
  obtain ⟨hsame, hkinds⟩ := exec_bufferAccess_withTable hi h
  have hself : t = { t with ct := s.ct, pad := s.pad } := Host.Outcome.next.inj (h.symm.trans (hsame s.ct s.pad))
  refine ⟨?_, hsame, hkinds⟩
  rw [hself]
  exact ⟨rfl, rfl⟩

end Sys2Proof.Machine
end

section
/-! SUPPORT. Words, results and faults of the buffer access commands (spec R111 to R117). -/

namespace Sys2Proof.Machine

open Sys2Proof.Spec

section
variable {s t : State} {i : Instr}

/-- `exec_of_completes` in the words of R73 step 4. -/
theorem exec_eq_answered {n : Nat} (hs : s.err = 0#8) (ht : t.err = 0#8) (h : Completes s i (respond (zext32 n) t)) :
    exec i s = .next (answered n t) := by
  rw [exec_of_completes hs h, respond_eq_answered ht]

/-- `exec_of_bufferFault` in the words of R207. -/
theorem exec_eq_faulted {f : FaultKind} {info : Nat} (hs : s.err = 0#8) (h : BufferFault s i f info) :
    exec i s = .next (faulted f.code.toNat info s) := by
  rw [exec_of_bufferFault hs h, raise_eq_faulted]

end

theorem encode_pushi_eq_add (v : Byte) : 0x1000#16 + v.setWidth 16 = encode (.pushi v) := mkWord_zero_add_imm 0x10#8 v

theorem encode_pushb_eq_add (b : Byte) : 0x1100#16 + b.setWidth 16 = encode (.pushb b) := mkWord_zero_add_imm 0x11#8 b

theorem encode_pushb_toNat (b : Byte) : (encode (.pushb b)).toNat = 0x1100 + b.toNat := by
  have := b.isLt
  simp only [encode, mkWord, BitVec.toNat_ofNat]
  omega

/-- R78: an operand of 2 or more makes the word of `PUSHB` illegal. -/
theorem decode_encode_pushb_of_illegal {b : Byte} (h : 2 ≤ b.toNat) : decode (encode (.pushb b)) = none :=
  (decode_encode_pushb b).trans (if_neg (Nat.not_lt.2 h))

theorem bitOperand_of_legal {b : Byte} (h : b.toNat < 2) : bitOperand b = decide (b = 1#8) := by
  have hb : b = 0#8 ∨ b = 1#8 := by bv_omega
  obtain rfl | rfl := hb <;> rfl

/-- Settles O23. -/
theorem pushiAppendsByte : Obligations.PushiAppendsByte := by
  refine ⟨fun v => ?_, fun v s hs => ⟨fun room => ?_, fun full => ?_⟩⟩
  · rw [encode_pushi_eq_add]
    exact decode_encode_of_wf rfl
  · exact exec_eq_answered hs hs (.pushi v room)
  · exact exec_eq_faulted hs (.pushi v full)

/-- Settles O24. -/
theorem pushbAppendsBit : Obligations.PushbAppendsBit := by
  refine ⟨fun b legal => ?_, fun b s hs => ⟨fun legal room => ?_, fun legal full => ?_, fun illegal => ?_⟩⟩
  · rw [encode_pushb_eq_add]
    exact decode_encode_of_wf (decide_eq_true legal)
  · rw [← bitOperand_of_legal legal]
    exact exec_eq_answered hs hs (.pushb b legal room)
  · exact exec_eq_faulted hs (.pushb b legal full)
  · rw [encode_pushb_eq_add, transact_of_illegal (decode_encode_pushb_of_illegal illegal), illegalWord_of_ready hs,
      raise_eq_faulted, encode_pushb_toNat]
    rfl

/-- Settles O25. -/
theorem popoRemovesHeadByte : Obligations.PopoRemovesHeadByte := by
  refine ⟨decode_encode_of_wf (i := .popo) rfl, fun s hs => ⟨fun v rest head => ?_, fun empty => ?_⟩⟩
  · have hdata : zext32 v.toNat = v.setWidth 32 := BitVec.ofNat_toNat 32 v
    exact exec_eq_answered hs hs (hdata ▸ .popo v rest head)
  · exact exec_eq_faulted hs (.popo empty)

/-- Settles O26. -/
theorem popbRemovesHeadBit : Obligations.PopbRemovesHeadBit := by
  refine ⟨decode_encode_of_wf (i := .popb) rfl, fun s hs => ⟨fun b rest head => ?_, fun empty => ?_⟩⟩
  · have hdata : b.toNat = if b then 1 else 0 := by cases b <;> rfl
    exact exec_eq_answered hs hs (hdata ▸ .popb b rest head)
  · exact exec_eq_faulted hs (.popb empty)

/-- Settles O27. -/
theorem clearsEmptyOneBuffer : Obligations.ClearsEmptyOneBuffer :=
  ⟨decode_encode_of_wf (i := .clri) rfl, decode_encode_of_wf (i := .clro) rfl, decode_encode_of_wf (i := .clrb) rfl,
    fun _ hs => ⟨exec_eq_answered hs hs .clri, exec_eq_answered hs hs .clro, exec_eq_answered hs hs .clrb⟩⟩

end Sys2Proof.Machine
end

section
/-! SUPPORT. Reading whole entries, a cut entry and an entry of length 0, and exactly when `deserialize` succeeds
(spec R86, R87, R137, R139). -/

namespace Sys2Proof.Machine

open Sys2Proof.Spec

/-- The table after the entries `es` are written into `t` in their order (R137, R139 c). -/
def loadEntries (t : CodeTable) (es : List RawEntry) : CodeTable :=
  es.foldl (fun u e => putCode u e.symbol e.bits) t

@[simp] theorem loadEntries_nil (t : CodeTable) : loadEntries t [] = t := rfl

@[simp] theorem loadEntries_cons (t : CodeTable) (e : RawEntry) (es : List RawEntry) :
    loadEntries t (e :: es) = loadEntries (putCode t e.symbol e.bits) es := rfl

/-- R139 (c): the last entry of a symbol counts; without one the symbol keeps the code it had. -/
theorem codeOf_loadEntries (t : CodeTable) (es : List RawEntry) (a : Byte) :
    codeOf (loadEntries t es) a =
      ((es.reverse.find? fun e => decide (e.symbol = a)).map RawEntry.bits).or (codeOf t a) := by
  induction es generalizing t with
  | nil => simp
  | cons e es ih =>
    rw [loadEntries_cons, ih, codeOf_putCode, List.reverse_cons, List.find?_append, Option.map_or, Option.or_assoc]
    by_cases h : e.symbol = a
    · simp [h]
    · simp [h, Ne.symm h]

theorem rawEntry_bytes_length (e : RawEntry) : e.bytes.length = 2 + e.code.length := by
  simp [RawEntry.bytes]
  omega

/-- R86: an entry has at least 3 bytes. -/
theorem three_le_bytes_length {e : RawEntry} (he : e.ok) : 3 ≤ e.bytes.length := by
  obtain ⟨hlen, hcode⟩ := he
  have hpos : e.len.toNat ≠ 0 := fun h0 => hlen (BitVec.eq_of_toNat_eq h0)
  rw [rawEntry_bytes_length, hcode]
  unfold ceil8
  omega

section
variable (n count pos : Nat) (t : CodeTable)

theorem readEntries_rawEntry {e : RawEntry} (he : e.ok) (x : Bytes) :
    readEntries n (count + 1) pos (e.bytes ++ x) t =
      readEntries n count (pos + e.bytes.length) x (putCode t e.symbol e.bits) := by
  rw [rawEntry_bytes_length, ← Nat.add_assoc]
  exact readEntries_entry n count pos e.symbol e.len e.code x t he.1 he.2

/-- Whole entries are read one after the other, whatever follows them. -/
theorem readEntries_rawEntries {es : List RawEntry} (hes : ∀ e ∈ es, e.ok) (x : Bytes) :
    readEntries n (es.length + count) pos (es.flatMap RawEntry.bytes ++ x) t =
      readEntries n count (pos + (es.flatMap RawEntry.bytes).length) x (loadEntries t es) := by
  induction es generalizing pos t with
  | nil => simp
  | cons e es ih =>
    obtain ⟨he, hes⟩ := List.forall_mem_cons.1 hes
    rw [List.flatMap_cons, List.append_assoc, List.length_cons, Nat.add_right_comm, readEntries_rawEntry _ _ _ _ he,
      ih _ _ hes, List.length_append, Nat.add_assoc, loadEntries_cons]

theorem readEntries_zero_length (a : Byte) (x : Bytes) :
    readEntries n (count + 1) pos (a :: 0#8 :: x) t = .error ⟨.formatError, pos + 1⟩ := by
  rw [readEntries, if_pos rfl]

theorem readEntries_cutEntry {e : RawEntry} (he : e.ok) {m : Nat} (hm : m < e.bytes.length) :
    readEntries n (count + 1) pos (e.bytes.take m) t = .error ⟨.formatError, n⟩ := by
  match m with
  | 0 | 1 => rfl
  | m + 2 =>
    rw [rawEntry_bytes_length] at hm
    have hcut : (e.code.take m).length < ceil8 e.len.toNat := by
      rw [← he.2, List.length_take]
      omega
    have htake : e.bytes.take (m + 2) = e.symbol :: e.len :: e.code.take m := rfl
    rw [htake, readEntries, if_neg he.1, if_pos hcut]

/-- R137: entries cut short anywhere are reported at the end of the bytes there are. -/
theorem readEntries_cut {es : List RawEntry} (hes : ∀ e ∈ es, e.ok) {m : Nat}
    (hm : m < (es.flatMap RawEntry.bytes).length) :
    readEntries n es.length pos ((es.flatMap RawEntry.bytes).take m) t = .error ⟨.formatError, n⟩ := by
  induction es generalizing pos t m with
  | nil => simp at hm
  | cons e es ih =>
    obtain ⟨he, hes⟩ := List.forall_mem_cons.1 hes
    rw [List.flatMap_cons, List.length_append] at hm
    rw [List.flatMap_cons, List.length_cons]
    by_cases hcut : m < e.bytes.length
    · rw [List.take_append_of_le_length (Nat.le_of_lt hcut)]
      exact readEntries_cutEntry _ _ _ _ he hcut
    · rw [List.take_append, List.take_of_length_le (Nat.le_of_not_lt hcut), readEntries_rawEntry _ _ _ _ he]
      exact ih _ _ hes (by omega)

end

/-- The loop succeeds on whole entries only. -/
theorem readEntries_eq_ok {n count pos m : Nat} {rest : Bytes} {t u : CodeTable}
    (h : readEntries n count pos rest t = .ok (u, m)) :
    ∃ es x, es.length = count ∧ (∀ e ∈ es, RawEntry.ok e) ∧ rest = es.flatMap RawEntry.bytes ++ x ∧
      u = loadEntries t es ∧ m = pos + (es.flatMap RawEntry.bytes).length := by
  induction count generalizing pos rest t with
  | zero => cases h; exact ⟨[], rest, by simp⟩
  | succ count ih =>
    rcases readEntries_succ n count pos rest t with ⟨a, l, k, x, rfl, hl, hk, e⟩ | ⟨f, -, e⟩
    · obtain ⟨es, y, rfl, hes, rfl, rfl, rfl⟩ := ih (e.symm.trans h)
      refine ⟨⟨a, l, k⟩ :: es, y, rfl, List.forall_mem_cons.2 ⟨⟨hl, hk⟩, hes⟩, ?_, rfl, ?_⟩
      · simp [RawEntry.bytes]
      · simp [rawEntry_bytes_length]
        omega
    · cases e.symm.trans h

/-- R87: the size byte read back, for the sizes a block can have. -/
theorem entryCount_sizeByte {n : Nat} (h1 : 1 ≤ n) (h256 : n ≤ 256) : entryCount (sizeByte n) = n := by
  have hval : (sizeByte n).toNat = n % 256 := by simp [sizeByte]
  by_cases hn : n = 256
  · subst hn; rfl
  · have hne : sizeByte n ≠ 0#8 := fun h0 => by rw [h0] at hval; simp at hval; omega
    rw [entryCount, if_neg hne, hval, Nat.mod_eq_of_lt (by omega)]

theorem sizeByte_entryCount : ∀ a : Byte, sizeByte (entryCount a) = a := by decide

theorem entryCount_bounds : ∀ a : Byte, 1 ≤ entryCount a ∧ entryCount a ≤ 256 := by decide

theorem block_eq (es : List RawEntry) :
    block es = Config.magic ++ sizeByte es.length :: es.flatMap RawEntry.bytes := rfl

@[simp] theorem block_length (es : List RawEntry) : (block es).length = 5 + (es.flatMap RawEntry.bytes).length := by
  rw [block_eq]
  simp [Config.magic]
  omega

theorem deserialize_of_bad_magic {b : Bytes} (h : b.take 4 ≠ Config.magic) :
    deserialize b = .error ⟨.formatError, 0⟩ := by
  rw [deserialize, if_pos (.inr h)]

theorem deserialize_magic : deserialize Config.magic = .error ⟨.formatError, 4⟩ := rfl

theorem deserialize_magic_append (a : Byte) (rest : Bytes) :
    deserialize (Config.magic ++ a :: rest) = readEntries (rest.length + 5) (entryCount a) 5 rest [] := by
  rw [deserialize, if_neg (by simp [Config.magic])]
  rfl

/-- Past the magic and the size byte only the entries decide. -/
theorem deserialize_cases (b : Bytes) :
    (∃ info, deserialize b = .error ⟨.formatError, info⟩) ∨ ∃ a rest, b = Config.magic ++ a :: rest := by
  by_cases hmagic : b.take 4 = Config.magic
  · have hb : b = Config.magic ++ b.drop 4 := by rw [← hmagic, List.take_append_drop]
    cases hdrop : b.drop 4 with
    | nil =>
      rw [hdrop, List.append_nil] at hb
      exact .inl ⟨4, hb ▸ deserialize_magic⟩
    | cons a rest => exact .inr ⟨a, rest, hdrop ▸ hb⟩
  · exact .inl ⟨0, deserialize_of_bad_magic hmagic⟩

/-- R139 (a): a block of 1 to 256 whole entries is read, whatever follows it. -/
theorem deserialize_block_append {es : List RawEntry} (h1 : 1 ≤ es.length) (h256 : es.length ≤ 256)
    (hes : ∀ e ∈ es, e.ok) (x : Bytes) :
    deserialize (block es ++ x) = .ok (loadEntries [] es, (block es).length) := by
  have hread := fun n => readEntries_rawEntries n 0 5 [] hes x
  rw [block_length, block_eq, List.append_assoc, List.cons_append, deserialize_magic_append,
    entryCount_sizeByte h1 h256]
  exact hread _

/-- R137, R138: `deserialize` succeeds exactly on a block of 1 to 256 whole entries with anything after it, and answers
the table of its entries and its length. -/
theorem deserialize_eq_ok_iff (b : Bytes) (t : CodeTable) (n : Nat) :
    deserialize b = .ok (t, n) ↔
      ∃ es x, 1 ≤ es.length ∧ es.length ≤ 256 ∧ (∀ e ∈ es, RawEntry.ok e) ∧ b = block es ++ x ∧
        t = loadEntries [] es ∧ n = (block es).length := by
  constructor
  · intro h
    rcases deserialize_cases b with ⟨info, herror⟩ | ⟨a, rest, rfl⟩
    · cases herror.symm.trans h
    · rw [deserialize_magic_append] at h
      obtain ⟨es, x, hcount, hes, rfl, rfl, rfl⟩ := readEntries_eq_ok h
      obtain ⟨h1, h256⟩ := entryCount_bounds a
      refine ⟨es, x, hcount ▸ h1, hcount ▸ h256, hes, ?_, rfl, (block_length es).symm⟩
      rw [block_eq, hcount, sizeByte_entryCount, List.append_assoc, List.cons_append]
  · rintro ⟨es, x, h1, h256, hes, rfl, rfl, rfl⟩
    exact deserialize_block_append h1 h256 hes x

end Sys2Proof.Machine
end

section
/-! SUPPORT. The block that `serialize` writes, and that the table comes back from it (spec R139, R141, R143). -/

namespace Sys2Proof.Machine

open Sys2Proof.Spec

theorem canonical_iff_pairwise (t : CodeTable) :
    CodeTable.canonical t = true ↔ t.Pairwise fun e f => e.1.toNat < f.1.toNat := by
  induction t with
  | nil => simp [CodeTable.canonical]
  | cons e t ih => rw [canonical_cons, List.pairwise_cons, ih]

/-- A symbol above all listed ones is written at the end. -/
theorem putCode_of_forall_lt {t : CodeTable} {a : Byte} (h : ∀ f ∈ t, f.1.toNat < a.toNat) (c : Code) :
    putCode t a c = t ++ [(a, c)] := by
  induction t with
  | nil => rfl
  | cons e t ih =>
    obtain ⟨hlt, ht⟩ := List.forall_mem_cons.1 h
    have hne : e.1 ≠ a := fun he => Nat.ne_of_lt hlt (congrArg BitVec.toNat he)
    rw [putCode_cons, if_neg hne, if_neg (Nat.not_lt.2 (Nat.le_of_lt hlt)), ih ht, List.cons_append]

/-- An entry of a table as it stands in the bytes (R86, R141). -/
def rawEntryOf (e : Byte × Code) : RawEntry := ⟨e.1, BitVec.ofNat 8 e.2.length, packCode e.2⟩

theorem rawEntryOf_len {e : Byte × Code} (h255 : e.2.length ≤ 255) : (rawEntryOf e).len.toNat = e.2.length := by
  rw [rawEntryOf, BitVec.toNat_ofNat, Nat.mod_eq_of_lt (by omega)]

theorem rawEntryOf_ok {e : Byte × Code} (h1 : 1 ≤ e.2.length) (h255 : e.2.length ≤ 255) : (rawEntryOf e).ok := by
  have hlen := rawEntryOf_len h255
  refine ⟨fun h0 => ?_, ?_⟩
  · rw [h0, BitVec.toNat_ofNat] at hlen
    omega
  · rw [hlen]
    exact packCode_length e.2

theorem rawEntryOf_bits {e : Byte × Code} (h255 : e.2.length ≤ 255) : (rawEntryOf e).bits = e.2 := by
  rw [RawEntry.bits, rawEntryOf_len h255]
  exact unpackCode_packCode e.2

theorem serialize_eq_block (t : CodeTable) : serialize t = block (t.map rawEntryOf) := by
  rw [block_eq, List.length_map, List.flatMap_map, serialize, List.append_assoc]
  rfl

/-- Entries written in ascending order above those already there are the table's own list. -/
theorem loadEntries_rawEntryOf {t u : CodeTable} (hc : CodeTable.canonical (t ++ u) = true)
    (hu : ∀ e ∈ u, e.2.length ≤ 255) : loadEntries t (u.map rawEntryOf) = t ++ u := by
  induction u generalizing t with
  | nil => simp
  | cons e u ih =>
    obtain ⟨he, hu⟩ := List.forall_mem_cons.1 hu
    have habove : ∀ f ∈ t, f.1.toNat < e.1.toNat := fun f hf =>
      (List.pairwise_append.1 ((canonical_iff_pairwise _).1 hc)).2.2 f hf e List.mem_cons_self
    have hput : putCode t (rawEntryOf e).symbol (rawEntryOf e).bits = t ++ [e] := by
      rw [rawEntryOf_bits he]
      exact putCode_of_forall_lt habove e.2
    rw [List.append_cons] at hc ⊢
    rw [List.map_cons, loadEntries_cons, hput, ih hc hu]

/-- Settles O36: the block of `serialize` has whole entries, at most 256 of them, in ascending order, and loading
those from the empty table rebuilds the list. -/
theorem deserializeOfSerialize : Obligations.DeserializeOfSerialize := by
  intro t x hwf hne
  obtain ⟨hcanonical, hlen⟩ := (wf_iff t).1 hwf
  have hok : ∀ e ∈ t.map rawEntryOf, e.ok := by
    intro r hr
    obtain ⟨e, he, rfl⟩ := List.mem_map.1 hr
    exact rawEntryOf_ok (hlen e he).1 (hlen e he).2
  have hcount : (t.map rawEntryOf).length = tcnt t := List.length_map _
  have hload : loadEntries [] (t.map rawEntryOf) = t :=
    loadEntries_rawEntryOf (t := []) hcanonical fun e he => (hlen e he).2
  rw [serialize_eq_block, deserialize_block_append (hcount ▸ hne) (hcount ▸ tcnt_le_of_wf hwf) hok, hload]

theorem one_le_tcnt_of_codeOf {t : CodeTable} {a : Byte} {c : Code} (h : codeOf t a = some c) : 1 ≤ tcnt t :=
  List.length_pos_of_mem (mem_of_codeOf h)

/-- What loads from at least one entry has a symbol: that of the last entry. -/
theorem one_le_tcnt_loadEntries {es : List RawEntry} (h : 1 ≤ es.length) : 1 ≤ tcnt (loadEntries [] es) := by
  rcases List.eq_nil_or_concat es with rfl | ⟨init, last, rfl⟩
  · simp at h
  · refine one_le_tcnt_of_codeOf (a := last.symbol) (c := last.bits) ?_
    rw [codeOf_loadEntries]
    simp

/-- R88: a block of at least one entry has at least 8 bytes. -/
theorem eight_le_block_length {es : List RawEntry} (h1 : 1 ≤ es.length) (hes : ∀ e ∈ es, e.ok) :
    8 ≤ (block es).length := by
  cases es with
  | nil => simp at h1
  | cons e es =>
    have := three_le_bytes_length (hes e List.mem_cons_self)
    rw [block_length, List.flatMap_cons, List.length_append]
    omega

/-- Settles O33: the bytes read are a whole block, and a block is read the same way whatever follows it. -/
theorem deserializeStopsAtBlockEnd : Obligations.DeserializeStopsAtBlockEnd := by
  intro b t n h
  obtain ⟨es, x, h1, h256, hes, rfl, rfl, rfl⟩ := (deserialize_eq_ok_iff b t n).1 h
  refine ⟨eight_le_block_length h1 hes, by simp, deserialize_wf h, one_le_tcnt_loadEntries h1, fun y => ?_⟩
  rw [List.take_left]
  exact deserialize_block_append h1 h256 hes y

end Sys2Proof.Machine
end

section
/-! SUPPORT. Where a malformed block is refused (spec R137). -/

namespace Sys2Proof.Machine

open Sys2Proof.Spec

/-- A block cut short anywhere after the magic is reported at the number of bytes there are. -/
theorem deserialize_block_take {es : List RawEntry} (h1 : 1 ≤ es.length) (h256 : es.length ≤ 256)
    (hes : ∀ e ∈ es, e.ok) {n : Nat} (h4 : 4 ≤ n) (hn : n < (block es).length) :
    deserialize ((block es).take n) = .error ⟨.formatError, n⟩ := by
  rw [block_length] at hn
  by_cases hsize : n = 4
  · subst hsize
    exact deserialize_magic
  · obtain ⟨m, rfl⟩ := Nat.exists_eq_add_of_le' (show 5 ≤ n by omega)
    have htake : (block es).take (m + 5) =
        Config.magic ++ sizeByte es.length :: (es.flatMap RawEntry.bytes).take m := rfl
    have hm : m < (es.flatMap RawEntry.bytes).length := by omega
    rw [htake, deserialize_magic_append, entryCount_sizeByte h1 h256, readEntries_cut _ _ _ hes hm, List.length_take,
      Nat.min_eq_left (Nat.le_of_lt hm)]

/-- An entry of length 0 after fewer whole entries than the size byte asks for is reported at its length byte. -/
theorem deserialize_zero_length {es : List RawEntry} (hes : ∀ e ∈ es, e.ok) {size : Byte}
    (hcount : es.length < entryCount size) (a : Byte) (x : Bytes) :
    deserialize (Config.magic ++ size :: (es.flatMap RawEntry.bytes ++ a :: 0#8 :: x)) =
      .error ⟨.formatError, 5 + (es.flatMap RawEntry.bytes).length + 1⟩ := by
  obtain ⟨k, hk⟩ := Nat.exists_eq_add_of_lt hcount
  rw [deserialize_magic_append, hk, Nat.add_assoc, readEntries_rawEntries _ _ _ _ hes, readEntries_zero_length]

theorem deserialize_error_kind {b : Bytes} {f : Failure} (h : deserialize b = .error f) : f.kind = .formatError := by
  rcases deserialize_cases b with ⟨info, herror⟩ | ⟨a, rest, rfl⟩
  · cases herror.symm.trans h
    rfl
  · rw [deserialize_magic_append] at h
    exact readEntries_error h

end Sys2Proof.Machine
end

section
/-! SUPPORT. Words, results and faults of the code table commands (spec R130 to R142). -/

namespace Sys2Proof.Machine

open Sys2Proof.Spec

/-- The faults of the code table commands in READY, each with its guard and its `ERRINFO` (R132, R133, R137, R142). -/
inductive TableFault (s : State) : Instr → FaultKind → Nat → Prop
  | tblset (a : Byte) (len : s.bits.length = 0 ∨ 255 < s.bits.length) :
      TableFault s (.tblset a) .tableError s.bits.length
  | tblget (a : Byte) (c : Code) (present : codeOf s.ct a = some c) (overflow : s.cap.bits < s.bits.length + c.length) :
      TableFault s (.tblget a) .bufferError s.bits.length
  | ldtbl (f : Failure) (malformed : deserialize s.ibuf = .error f) : TableFault s .ldtbl f.kind f.info
  | sttblEmpty (empty : tcnt s.ct = 0) : TableFault s .sttbl .tableError 0
  | sttbl (nonempty : tcnt s.ct ≠ 0) (overflow : s.cap.obuf < s.obuf.length + (serialize s.ct).length) :
      TableFault s .sttbl .bufferError s.obuf.length

theorem exec_of_tableFault {s : State} {i : Instr} {f : FaultKind} {info : Nat} (hs : s.err = 0#8)
    (h : TableFault s i f info) : exec i s = .next (faulted f.code.toNat info s) := by
  rw [← raise_eq_faulted]
  cases h <;> rw [exec]
  all_goals refine (whenReady_of_ready hs _).trans (congrArg Host.Outcome.next ?_)
  case tblset len => exact if_pos len
  case tblget present overflow => simp only [present, appendBits_of_overflow overflow]
  case ldtbl malformed => simp only [malformed, raiseFailure]
  case sttblEmpty empty => exact if_pos empty
  case sttbl nonempty overflow => exact (if_neg nonempty).trans (appendObuf_of_overflow overflow _)

theorem encode_tblset_eq_add (a : Byte) : 0x2100#16 + a.setWidth 16 = encode (.tblset a) := mkWord_zero_add_imm 0x21#8 a

theorem encode_tblget_eq_add (a : Byte) : 0x2200#16 + a.setWidth 16 = encode (.tblget a) := mkWord_zero_add_imm 0x22#8 a

/-- R130: in canonical form a write adds an entry exactly when the symbol was absent. -/
theorem tcnt_putCode {t : CodeTable} (h : CodeTable.canonical t = true) (a : Byte) (c : Code) :
    tcnt (putCode t a c) = if codeOf t a = none then tcnt t + 1 else tcnt t := by
  induction t with
  | nil => rfl
  | cons e t ih =>
    obtain ⟨hlt, hc⟩ := (canonical_cons e t).1 h
    rw [putCode_cons, codeOf_cons]
    by_cases he : e.1 = a
    · simp [he, tcnt]
    · by_cases ha : a.toNat < e.1.toNat
      · have habsent : codeOf t a = none := by
          cases hcode : codeOf t a with
          | none => rfl
          | some d => exact absurd (hlt _ (mem_of_codeOf hcode)) (Nat.not_lt.2 (Nat.le_of_lt ha))
        simp [he, ha, habsent, tcnt]
      · have ih := ih hc
        rw [if_neg he, if_neg ha, if_neg he]
        simp only [tcnt, List.length_cons] at ih ⊢
        rw [ih]
        split <;> rfl

/-- Settles O28. -/
theorem tblclrEmptiesTable : Obligations.TblclrEmptiesTable :=
  ⟨decode_encode_of_wf (i := .tblclr) rfl, fun _ hs => ⟨[], codeOf_nil, rfl, exec_eq_answered hs hs .tblclr⟩⟩

/-- Settles O30. -/
theorem tblgetAppendsCode : Obligations.TblgetAppendsCode := by
  refine ⟨fun a => ?_, fun a s hs => ⟨fun absent => ?_, fun c present => ⟨fun fits => ?_, fun overflow => ?_⟩⟩⟩
  · rw [encode_tblget_eq_add]
    exact decode_encode_of_wf rfl
  · exact exec_eq_answered hs hs (.tblgetAbsent a absent)
  · exact exec_eq_answered hs hs (.tblget a c present fits)
  · exact exec_of_tableFault hs (.tblget a c present overflow)

/-- Settles O29: the table written is `putCode` of the old one. -/
theorem tblsetStoresCode : Obligations.TblsetStoresCode := by
  refine ⟨fun a => ?_, fun a s hs => ⟨fun pos le => ⟨putCode s.ct a s.bits, ?_, ?_, fun hc => ?_⟩, fun len => ?_⟩⟩
  · rw [encode_tblset_eq_add]
    exact decode_encode_of_wf rfl
  · exact exec_eq_answered hs hs (.tblset a pos le)
  · exact codeOf_putCode s.ct a s.bits
  · exact ⟨canonical_putCode hc a s.bits, tcnt_putCode hc a s.bits⟩
  · exact exec_of_tableFault hs (.tblset a len)

/-- `LDTBL` on malformed bytes, by the offset that `deserialize` reports. -/
theorem exec_ldtbl_of_error {s : State} {info : Nat} (hs : s.err = 0#8)
    (h : deserialize s.ibuf = .error ⟨.formatError, info⟩) : exec .ldtbl s = .next (faulted 1 info s) :=
  exec_of_tableFault hs (.ldtbl _ h)

/-- Settles O31: a block loads its entries in order, so the last one of a symbol counts, and dropping the block's
length leaves what follows it. -/
theorem ldtblLoadsBlock : Obligations.LdtblLoadsBlock := by
  refine ⟨decode_encode_of_wf (i := .ldtbl) rfl, fun s hs => ⟨fun t n hok => ?_, fun f herror => ?_⟩,
    fun s es x hs h1 h256 hes hibuf => ?_⟩
  · exact exec_eq_answered hs hs (.ldtbl t n hok)
  · obtain ⟨kind, info⟩ := f
    obtain rfl : kind = .formatError := deserialize_error_kind herror
    exact ⟨rfl, exec_ldtbl_of_error hs herror⟩
  · have hok : deserialize s.ibuf = .ok (loadEntries [] es, (block es).length) :=
      hibuf ▸ deserialize_block_append h1 h256 hes x
    refine ⟨loadEntries [] es, ?_, deserialize_wf hok, fun a => ?_⟩
    · have hrest : s.ibuf.drop (block es).length = x := by rw [hibuf, List.drop_left]
      exact hrest ▸ exec_eq_answered hs hs (.ldtbl _ _ hok)
    · rw [codeOf_loadEntries, codeOf_nil, Option.or_none]

/-- Settles O32. -/
theorem ldtblRefusesMalformed : Obligations.LdtblRefusesMalformed := by
  refine fun s hs => ⟨fun hmagic => ?_, fun es n h1 h256 hes h4 hn hibuf => ?_,
    fun es size a x hes hcount hibuf => ?_⟩
  · exact exec_ldtbl_of_error hs (deserialize_of_bad_magic hmagic)
  · exact exec_ldtbl_of_error hs (hibuf ▸ deserialize_block_take h1 h256 hes h4 hn)
  · refine exec_ldtbl_of_error hs ?_
    rw [hibuf, ← deserialize_zero_length hes hcount a x]
    simp [Config.magic]

/-- R141: the entries of a table in canonical form, found by asking for each present symbol. -/
theorem flatMap_dom_eq_entryBytes {t : CodeTable} (h : CodeTable.canonical t = true) :
    (dom t).flatMap (fun a => [a, BitVec.ofNat 8 ((codeOf t a).getD []).length] ++ packCode ((codeOf t a).getD [])) =
      t.flatMap entryBytes := by
  rw [dom, List.flatMap_map]
  refine List.flatMap_congr fun e he => ?_
  rw [(codeOf_eq_some_iff h e.1 e.2).2 he]
  rfl

/-- Settles O34: the present symbols are the listed ones, so the bytes of the statement are `serialize` of the table. -/
theorem sttblAppendsBlock : Obligations.SttblAppendsBlock := by
  refine ⟨decode_encode_of_wf (i := .sttbl) rfl, fun s hs hwf m hm => ?_⟩
  obtain ⟨hcanonical, -⟩ := (wf_iff s.ct).1 hwf
  obtain ⟨hdom, hcnt, -⟩ := tcntCountsPresentSymbols s.ct hcanonical
  have hserialize : m = serialize s.ct := by
    rw [hm, ← hcnt, hdom, flatMap_dom_eq_entryBytes hcanonical]
    rfl
  have hempty : tcnt s.ct = 0 ↔ presentSymbols s.ct = [] := by rw [hcnt, List.length_eq_zero_iff]
  subst hserialize
  refine ⟨fun hne fits => ?_, fun hne overflow => ?_, fun hnil => ?_⟩
  · exact exec_eq_answered hs hs (.sttbl (mt hempty.1 hne) fits)
  · exact exec_of_tableFault hs (.sttbl (mt hempty.1 hne) overflow)
  · exact exec_of_tableFault hs (.sttblEmpty (hempty.2 hnil))

end Sys2Proof.Machine
end

section
/-! SUPPORT. The payload of a bit sequence: `pack` as an equivalence, its bits by position, and how far `pack` and
`unpack` are inverse (spec R83, R151, R152, R156, R159, R160). -/

namespace Sys2Proof.Machine

/-- R151, and the key to this section: a payload is told by its padding byte and by the bits its data bytes open to. -/
theorem pack_eq_cons_iff (s : Bits) (p : Byte) (y : Bytes) :
    pack s = p :: y ↔ p.toNat = padCount s.length ∧ bitsOfBytes y = s ++ zeros (padCount s.length) := by
  have hp : BitVec.ofNat 8 (padCount s.length) = p ↔ p.toNat = padCount s.length := by
    rw [← BitVec.toNat_inj, padCount_byte, eq_comm]
  have hy : bytesOfBits (s ++ zeros (padCount s.length)) = y ↔ bitsOfBytes y = s ++ zeros (padCount s.length) := by
    constructor
    · rintro rfl
      exact bitsOfBytes_packed s _ (padCount_aligns s.length)
    · intro h
      rw [← h, bytesOfBits_bitsOfBytes]
  rw [pack, List.cons.injEq, hp, hy]

theorem exists_pack_eq_cons (s : Bits) :
    ∃ p y, pack s = p :: y ∧ p.toNat = padCount s.length ∧ bitsOfBytes y = s ++ zeros (padCount s.length) :=
  ⟨_, _, rfl, (pack_eq_cons_iff s _ _).1 rfl⟩

/-- R159. -/
theorem unpack_pack (s : Bits) : unpack (pack s) = .ok s := by
  obtain ⟨p, y, hpack, hp, hbits⟩ := exists_pack_eq_cons s
  obtain ⟨h1, h8⟩ := padCount_bounds s.length
  have hlen : 8 * y.length = s.length + p.toNat := by
    rw [← bitsOfBytes_length, hbits, List.length_append, zeros_length, hp]
  have hy : y ≠ [] := by
    rintro rfl
    rw [List.length_nil] at hlen
    omega
  rw [hpack, unpack_cons (hp ▸ h1) (hp ▸ h8) hy, hlen, Nat.add_sub_cancel, hbits, List.take_left]

/-- R156: what is left when `P` of the `8·N` data bits are stripped. -/
theorem stripped_length (y : Bytes) (p : Nat) :
    ((bitsOfBytes y).take (8 * y.length - p)).length = 8 * y.length - p := by
  rw [List.length_take, bitsOfBytes_length, Nat.min_eq_left (Nat.sub_le _ _)]

/-- R160: the padding count of the bits that are left is `P` again. -/
theorem padCount_of_stripped {p n : Nat} (h1 : 1 ≤ p) (h8 : p ≤ 8) (hn : n ≠ 0) : padCount (8 * n - p) = p := by
  unfold padCount
  omega

/-- R160, first half: both payloads have the same padding byte, so they differ at most in the stripped bits. -/
theorem pack_eq_iff_of_unpack {p : Byte} {y : Bytes} {s : Bits} (h : unpack (p :: y) = .ok s) :
    pack s = p :: y ↔ ∀ b ∈ (bitsOfBytes y).drop (8 * y.length - p.toNat), b = false := by
  obtain ⟨p, y, ⟨⟩, h1, h8, hy, hs⟩ := unpack_eq_ok h
  have hy : y.length ≠ 0 := mt List.length_eq_zero_iff.1 hy
  have hpad : padCount s.length = p.toNat := by rw [hs, stripped_length, padCount_of_stripped h1 h8 hy]
  have hsplit : s ++ (bitsOfBytes y).drop (8 * y.length - p.toNat) = bitsOfBytes y := by
    rw [hs, List.take_append_drop]
  have hstripped : ((bitsOfBytes y).drop (8 * y.length - p.toNat)).length = p.toNat := by
    rw [List.length_drop, bitsOfBytes_length]
    omega
  calc pack s = p :: y
      ↔ bitsOfBytes y = s ++ zeros p.toNat := by rw [pack_eq_cons_iff, hpad, and_iff_right rfl]
    _ ↔ s ++ (bitsOfBytes y).drop (8 * y.length - p.toNat) = s ++ zeros p.toNat := by rw [hsplit]
    _ ↔ (bitsOfBytes y).drop (8 * y.length - p.toNat) = zeros p.toNat := List.append_right_inj s
    _ ↔ ∀ b ∈ (bitsOfBytes y).drop (8 * y.length - p.toNat), b = false := by
        rw [zeros, List.eq_replicate_iff, and_iff_right hstripped]

/-- R160: `unpack` is a left inverse. -/
theorem pack_injective {s s' : Bits} (h : pack s = pack s') : s = s' :=
  Except.ok.inj ((unpack_pack s).symm.trans (h ▸ unpack_pack s'))

/-- The padding reads like what lies past the end of the sequence. -/
theorem getD_append_zeros (s : Bits) (k i : Nat) : (s ++ zeros k).getD i false = s.getD i false := by
  by_cases h : i < s.length
  · rw [List.getD_append _ _ _ _ h]
  · rw [List.getD_append_right _ _ _ _ (Nat.le_of_not_lt h), List.getD_eq_default _ _ (Nat.le_of_not_lt h)]
    by_cases hk : i - s.length < k
    · exact List.getD_replicate _ hk
    · exact List.getD_eq_default _ _ (by simpa using hk)

/-- R152, the data bits: byte `j` of the data opens to the bits from `8j` on (R52), padding included. -/
theorem pack_getElem? (s : Bits) {j k : Nat} (hj : j ≤ s.length / 8) (hk : k < 8) :
    ∃ v : Byte, (pack s)[1 + j]? = some v ∧ v.getLsbD (7 - k) = s.getD (8 * j + k) false := by
  obtain ⟨p, y, hpack, -, hbits⟩ := exists_pack_eq_cons s
  have hlen : 1 + j < (pack s).length := by
    rw [pack_length]
    omega
  have hv := List.getElem?_eq_getElem hlen
  have hbyte : y[j]? = some (pack s)[1 + j] := by
    rw [← hv, hpack, Nat.add_comm, List.getElem?_cons_succ]
  refine ⟨_, hv, ?_⟩
  rw [← getD_append_zeros s (padCount s.length), ← hbits, List.getD_eq_getElem?_getD,
    bitsOfBytes_getElem? hk hbyte, Option.getD_some]

/-- Settles O44. -/
theorem packBitByBit : Obligations.PackBitByBit :=
  fun s => ⟨pack_length s, rfl, fun _ _ => pack_getElem? s⟩

/-- Settles O45. -/
theorem unpackOfPack : Obligations.UnpackOfPack := unpack_pack

/-- Settles O46. -/
theorem packOfUnpack : Obligations.PackOfUnpack :=
  ⟨fun _ _ _ => pack_eq_iff_of_unpack, fun _ _ => pack_injective, rfl, rfl⟩

end Sys2Proof.Machine
end

section
/-! SUPPORT. The malformed payloads, and the faults and results of `PACK` and `UNPACK` (spec R150, R155 to R157). -/

namespace Sys2Proof.Machine

open Sys2Proof.Spec

/-- R157 (a). -/
theorem unpack_nil : unpack [] = .error ⟨.formatError, 0⟩ := rfl

/-- R157 (b). -/
theorem unpack_of_bad_padding {p : Byte} (h : p.toNat = 0 ∨ 9 ≤ p.toNat) (y : Bytes) :
    unpack (p :: y) = .error ⟨.formatError, 0⟩ := by
  have hbad : p.toNat < Config.padMin ∨ p.toNat > Config.padMax := h.imp_left Nat.lt_one_iff.2
  rw [unpack, if_pos hbad]

/-- R157 (c). -/
theorem unpack_of_no_data {p : Byte} (h1 : 1 ≤ p.toNat) (h8 : p.toNat ≤ 8) :
    unpack [p] = .error ⟨.formatError, 1⟩ := by
  have hlegal : ¬(p.toNat < Config.padMin ∨ p.toNat > Config.padMax) := not_or.2 ⟨Nat.not_lt.2 h1, Nat.not_lt.2 h8⟩
  rw [unpack, if_neg hlegal, if_pos List.length_nil]

/-- The faults of the bit packer in READY, each with its guard and its `ERRINFO` (R150, R155). -/
inductive PackerFault (s : State) : Instr → FaultKind → Nat → Prop
  | pack (overflow : s.cap.obuf < s.obuf.length + (pack s.bits).length) :
      PackerFault s .pack .bufferError s.obuf.length
  | unpackMalformed (f : Failure) (malformed : unpack s.ibuf = .error f) : PackerFault s .unpack f.kind f.info
  | unpack (r : Bits) (payload : unpack s.ibuf = .ok r) (overflow : s.cap.bits < s.bits.length + r.length) :
      PackerFault s .unpack .bufferError s.bits.length

theorem exec_of_packerFault {s : State} {i : Instr} {f : FaultKind} {info : Nat} (hs : s.err = 0#8)
    (h : PackerFault s i f info) : exec i s = .next (faulted f.code.toNat info s) := by
  rw [← raise_eq_faulted]
  cases h <;> rw [exec]
  all_goals refine (whenReady_of_ready hs _).trans (congrArg Host.Outcome.next ?_)
  case pack overflow => exact appendObuf_of_overflow overflow _
  case unpackMalformed malformed => simp only [malformed, raiseFailure]
  case unpack payload overflow => simp only [payload, appendBits_of_overflow overflow]

/-- Settles O37. -/
theorem packAppendsPayload : Obligations.PackAppendsPayload := by
  refine ⟨decode_encode_of_wf (i := .pack) rfl, fun s hs => ?_⟩
  rw [← pack_length]
  exact ⟨fun fits => exec_eq_answered hs hs (.pack fits), fun overflow => exec_of_packerFault hs (.pack overflow)⟩

/-- Settles O38. -/
theorem unpackAppendsBits : Obligations.UnpackAppendsBits := by
  refine ⟨decode_encode_of_wf (i := .unpack) rfl, fun s hs => ⟨fun p y hibuf h1 h8 hy => ?_, fun hibuf => ?_,
    fun p y hibuf hbad => ?_, fun p hibuf h1 h8 => ?_⟩⟩
  · have payload : unpack s.ibuf = .ok ((bitsOfBytes y).take (8 * y.length - p.toNat)) :=
      hibuf ▸ unpack_cons h1 h8 hy
    have hhead : s.ibuf.headD 0#8 = p := by rw [hibuf, List.headD_cons]
    refine ⟨fun fits => ?_, fun overflow => ?_⟩
    · have hdone := Completes.unpack _ payload (by rwa [stripped_length])
      rw [hhead] at hdone
      exact exec_eq_answered hs hs hdone
    · exact exec_of_packerFault hs (.unpack _ payload (by rwa [stripped_length]))
  · exact exec_of_packerFault hs (.unpackMalformed _ (hibuf ▸ unpack_nil))
  · exact exec_of_packerFault hs (.unpackMalformed _ (hibuf ▸ unpack_of_bad_padding hbad y))
  · exact exec_of_packerFault hs (.unpackMalformed _ (hibuf ▸ unpack_of_no_data h1 h8))

end Sys2Proof.Machine
end

section
/-! SUPPORT. The codes of a byte sequence: where `encode` succeeds, what it gives, and where it fails (spec R171, R172). -/

namespace Sys2Proof.Machine

open Sys2Proof.Spec

theorem covered_nil (t : CodeTable) : covered [] t := fun _ h => absurd h List.not_mem_nil

theorem covered_cons (t : CodeTable) (a : Byte) (b : Bytes) :
    covered (a :: b) t ↔ (∃ c, codeOf t a = some c) ∧ covered b t := by
  simp only [covered, List.forall_mem_cons, Option.ne_none_iff_exists']

theorem covered_append (t : CodeTable) (x z : Bytes) : covered (x ++ z) t ↔ covered x t ∧ covered z t :=
  List.forall_mem_append

@[simp] theorem codesOf_nil (t : CodeTable) : codesOf t [] = [] := rfl

theorem codesOf_cons {t : CodeTable} {a : Byte} {c : Code} (h : codeOf t a = some c) (b : Bytes) :
    codesOf t (a :: b) = c ++ codesOf t b := by
  rw [codesOf, List.flatMap_cons, h, Option.getD_some, codesOf]

theorem codesOf_append (t : CodeTable) (x z : Bytes) : codesOf t (x ++ z) = codesOf t x ++ codesOf t z :=
  List.flatMap_append

/-- `encode` succeeds exactly on covered input, and gives the codes one after the other. -/
theorem encodeBytes_eq_ok_iff (t : CodeTable) (b : Bytes) (r : Bits) :
    encodeBytes b t = .ok r ↔ covered b t ∧ r = codesOf t b := by
  induction b generalizing r with
  | nil => simp [covered_nil, eq_comm]
  | cons a b ih =>
    rw [encodeBytes_cons_eq_ok, covered_cons]
    constructor
    · rintro ⟨c, q, hc, hq, rfl⟩
      obtain ⟨hb, rfl⟩ := (ih q).1 hq
      exact ⟨⟨⟨c, hc⟩, hb⟩, (codesOf_cons hc b).symm⟩
    · rintro ⟨⟨⟨c, hc⟩, hb⟩, rfl⟩
      exact ⟨c, codesOf t b, hc, (ih _).2 ⟨hb, rfl⟩, codesOf_cons hc b⟩

theorem encodeBytes_of_covered {t : CodeTable} {b : Bytes} (h : covered b t) : encodeBytes b t = .ok (codesOf t b) :=
  (encodeBytes_eq_ok_iff t b _).2 ⟨h, rfl⟩

/-- R171: the failure reports the index of the first byte without a code. -/
theorem encodeFrom_of_missing {t : CodeTable} {a : Byte} (ha : codeOf t a = none) {pre : Bytes} (hpre : covered pre t)
    (i : Nat) (post : Bytes) : encodeFrom t i (pre ++ a :: post) = .error ⟨.lookupError, i + pre.length⟩ := by
  induction pre generalizing i with
  | nil => simp only [List.nil_append, encodeFrom_cons, ha, List.length_nil, Nat.add_zero]
  | cons x pre ih =>
    obtain ⟨⟨c, hc⟩, hpre⟩ := (covered_cons t x pre).1 hpre
    simp only [List.cons_append, encodeFrom_cons, hc, ih hpre, Except.map, List.length_cons,
      Nat.add_assoc, Nat.add_comm 1]

/-- Settles O47: both sides say that `z` is covered and `q` its codes. -/
theorem encodeInPieces : Obligations.EncodeInPieces := by
  intro t x z r q hx
  obtain ⟨hcovered, rfl⟩ := (encodeBytes_eq_ok_iff t x r).1 hx
  rw [encodeBytes_eq_ok_iff, encodeBytes_eq_ok_iff, covered_append, codesOf_append, List.append_cancel_left_eq,
    and_iff_right hcovered]

end Sys2Proof.Machine
end

section
/-! SUPPORT. The decoder's loop on a run of whole codes of a prefix code (spec R173, R181). -/

namespace Sys2Proof.Machine

open Sys2Proof.Spec

section
variable {t : CodeTable} (hwf : CodeTable.wf t = true) (hp : prefixFree t = true)
include hwf

/-- R26: no code is empty, so a byte costs at least one bit. -/
theorem length_le_codesOf_length {b : Bytes} (hb : covered b t) : b.length ≤ (codesOf t b).length := by
  induction b with
  | nil => exact Nat.zero_le _
  | cons a b ih =>
    obtain ⟨⟨c, hc⟩, hb⟩ := (covered_cons t a b).1 hb
    have hpos := (codeOf_length hwf hc).1
    have hrest := ih hb
    rw [codesOf_cons hc, List.length_append, List.length_cons]
    omega

include hp

/-- One iteration on a whole code emits its symbol. -/
theorem decodeFrom_code_append {a : Byte} {c : Code} (hc : codeOf t a = some c) (fuel cur : Nat) (u : Bits) :
    decodeFrom t (fuel + 1) cur (c ++ u) = (decodeFrom t fuel (cur + c.length) u).map (a :: ·) := by
  have hne : c ++ u ≠ [] := List.append_ne_nil_of_left_ne_nil (List.ne_nil_of_length_pos (codeOf_length hwf hc).1) u
  have hm : matchEntry t (c ++ u) = some (a, c) :=
    matchEntry_of_prefix ((wf_iff t).1 hwf).1 hp (mem_of_codeOf hc) (List.prefix_append c u)
  rw [decodeFrom_of_match hne hm, List.drop_left]

/-- A run of whole codes emits its symbols and leaves what follows to the rest of the loop. -/
theorem decodeFrom_codesOf_append {b : Bytes} (hb : covered b t) (fuel cur : Nat) (u : Bits) :
    decodeFrom t (fuel + b.length) cur (codesOf t b ++ u) =
      (decodeFrom t fuel (cur + (codesOf t b).length) u).map (b ++ ·) := by
  induction b generalizing cur with
  | nil => exact (id_map (decodeFrom t fuel cur u)).symm
  | cons a b ih =>
    obtain ⟨⟨c, hc⟩, hb⟩ := (covered_cons t a b).1 hb
    rw [codesOf_cons hc, List.append_assoc, List.length_cons, ← Nat.add_assoc, decodeFrom_code_append hwf hp hc, ih hb,
      List.length_append, Nat.add_assoc]
    cases decodeFrom t fuel (cur + (c.length + (codesOf t b).length)) u <;> rfl

theorem decodeBits_codesOf {b : Bytes} (hb : covered b t) : decodeBits (codesOf t b) t = .ok b := by
  have h := decodeFrom_codesOf_append hwf hp hb ((codesOf t b).length - b.length) 0 []
  rwa [Nat.sub_add_cancel (length_le_codesOf_length hwf hb), List.append_nil, decodeFrom_nil, Except.map,
    List.append_nil] at h

end

/-- Settles O50: the input has at most as many bytes as its codes have bits, so the fuel lasts for the whole run. -/
theorem decodeOfEncodedBytes : Obligations.DecodeOfEncodedBytes :=
  fun t b hwf hp hb => ⟨codesOf t b, encodeBytes_of_covered hb, decodeBits_codesOf hwf hp hb⟩

end Sys2Proof.Machine
end

section
/-! SUPPORT. The faults and results of `ENCODE` (spec R170, R171). -/

namespace Sys2Proof.Machine

open Sys2Proof.Spec

/-- R170: a byte without a code is reported as `encode` reports it. -/
theorem exec_encode_of_error {s : State} {f : Failure} (hs : s.err = 0#8) (h : encodeBytes s.ibuf s.ct = .error f) :
    exec .encode s = .next (faulted f.kind.code.toNat f.info s) := by
  rw [← raise_eq_faulted, exec, execEncode, whenReady_of_ready hs]
  simp only [h, raiseFailure]

/-- R204: codes that do not fit leave `BITS` as it is. -/
theorem exec_encode_of_overflow {s : State} {r : Bits} (hs : s.err = 0#8) (h : encodeBytes s.ibuf s.ct = .ok r)
    (overflow : s.cap.bits < s.bits.length + r.length) : exec .encode s = .next (faulted 4 s.bits.length s) := by
  rw [exec, execEncode, whenReady_of_ready hs]
  simp only [h, appendBits_of_overflow overflow, raise_eq_faulted]
  rfl

/-- Settles O39: covered input encodes to its codes, and other input fails at the end of its covered start. -/
theorem encodeAppendsCodes : Obligations.EncodeAppendsCodes := by
  refine ⟨decode_encode_of_wf (i := .encode) rfl, fun s hs => ⟨fun hcovered => ?_, fun pre post a hibuf hpre ha => ?_⟩⟩
  · have codes := encodeBytes_of_covered hcovered
    exact ⟨fun fits => exec_eq_answered hs hs (.encode _ codes fits),
      fun overflow => exec_encode_of_overflow hs codes overflow⟩
  · have noCode : encodeBytes s.ibuf s.ct = .error ⟨.lookupError, pre.length⟩ := by
      rw [hibuf, encodeBytes, encodeFrom_of_missing ha hpre, Nat.zero_add]
    exact exec_encode_of_error hs noCode

end Sys2Proof.Machine
end

section
/-! SUPPORT. A prefix code on its entries and its lookup, and why a match is unique (spec R182, R183). -/

namespace Sys2Proof.Machine

open Sys2Proof.Spec

/-- Settles O48. -/
theorem prefixFreeIsPairwise : Obligations.PrefixFreeIsPairwise := by
  intro t hc
  rw [prefixFree_iff]
  constructor
  · exact fun hp a b c d hab ha hb => hp (a, c) (mem_of_codeOf ha) (b, d) (mem_of_codeOf hb) hab
  · exact fun hpair e he f hf hne =>
      hpair e.1 f.1 e.2 f.2 hne ((codeOf_eq_some_iff hc _ _).2 he) ((codeOf_eq_some_iff hc _ _).2 hf)

/-- R182: two entries whose codes begin the same bits are both the match there, hence the same entry. -/
theorem entry_eq_of_prefix {t : CodeTable} (hc : CodeTable.canonical t = true) (hp : prefixFree t = true)
    {u : Bits} {e f : Byte × Code} (he : e ∈ t) (hf : f ∈ t) (heu : e.2 <+: u) (hfu : f.2 <+: u) : e = f :=
  Option.some.inj ((matchEntry_of_prefix hc hp he heu).symm.trans (matchEntry_of_prefix hc hp hf hfu))

/-- Settles O49. -/
theorem matchIsUnique : Obligations.MatchIsUnique := fun _ _ _ _ _ _ hc hp ha hb hau hbu =>
  congrArg Prod.fst (entry_eq_of_prefix hc hp (mem_of_codeOf ha) (mem_of_codeOf hb) hau hbu)

end Sys2Proof.Machine
end

section
/-! SUPPORT. Every stream is a run of whole codes and a rest that begins with no code; what `decode` answers follows
from the rest (spec R181, R185, R190). -/

namespace Sys2Proof.Machine

open Sys2Proof.Spec

/-- No code of the table is a prefix of the bits `u`: the set `M` of R181 is empty. -/
def Unmatched (t : CodeTable) (u : Bits) : Prop := ∀ a c, codeOf t a = some c → ¬c <+: u

theorem matchEntry_of_unmatched {t : CodeTable} (hc : CodeTable.canonical t = true) {u : Bits} (h : Unmatched t u) :
    matchEntry t u = none :=
  matchEntry_eq_none.2 fun e he => h e.1 e.2 ((codeOf_eq_some_iff hc _ _).2 he)

section
variable {t : CodeTable} (hwf : CodeTable.wf t = true)
include hwf

theorem exists_codesOf_append_unmatched (s : Bits) :
    ∃ b u, covered b t ∧ s = codesOf t b ++ u ∧ Unmatched t u := by
  induction hn : s.length using Nat.strong_induction_on generalizing s with
  | _ n ih =>
    by_cases hmatch : Unmatched t s
    · exact ⟨[], s, covered_nil t, rfl, hmatch⟩
    · simp only [Unmatched, not_forall, not_not] at hmatch
      obtain ⟨a, c, hc, rest, rfl⟩ := hmatch
      have hpos := (codeOf_length hwf hc).1
      obtain ⟨b, u, hb, rfl, hu⟩ := ih rest.length (by rw [← hn, List.length_append]; omega) rest rfl
      exact ⟨a :: b, u, (covered_cons t a b).2 ⟨⟨c, hc⟩, hb⟩, by rw [codesOf_cons hc, List.append_assoc], hu⟩

variable (hp : prefixFree t = true)
include hp

/-- R185: the failure is at the end of the run of whole codes. The run has at least as many bits as bytes, so fuel is
left for the iteration that fails. -/
theorem decodeBits_of_unmatched {b : Bytes} (hb : covered b t) {u : Bits} (hne : u ≠ []) (hu : Unmatched t u) :
    decodeBits (codesOf t b ++ u) t = .error ⟨.decodeError, (codesOf t b).length⟩ := by
  have hle := length_le_codesOf_length hwf hb
  have hpos := List.length_pos_iff.2 hne
  obtain ⟨fuel, hfuel⟩ : ∃ fuel, (codesOf t b ++ u).length = fuel + 1 + b.length :=
    ⟨(codesOf t b).length + u.length - 1 - b.length, by rw [List.length_append]; omega⟩
  rw [decodeBits, hfuel, decodeFrom_codesOf_append hwf hp hb,
    decodeFrom_of_no_match hne (matchEntry_of_unmatched ((wf_iff t).1 hwf).1 hu), Nat.zero_add, Except.map]

theorem decodeBits_eq_ok_iff (s : Bits) (b : Bytes) : decodeBits s t = .ok b ↔ covered b t ∧ s = codesOf t b := by
  constructor
  · intro hok
    obtain ⟨b', u, hb, rfl, hu⟩ := exists_codesOf_append_unmatched hwf s
    by_cases hne : u = []
    · subst hne
      rw [List.append_nil, decodeBits_codesOf hwf hp hb] at hok
      cases hok
      exact ⟨hb, List.append_nil _⟩
    · rw [decodeBits_of_unmatched hwf hp hb hne hu] at hok
      cases hok
  · rintro ⟨hb, rfl⟩
    exact decodeBits_codesOf hwf hp hb

theorem decodeBits_eq_error_iff (s : Bits) (f : Failure) :
    decodeBits s t = .error f ↔ ∃ b u, covered b t ∧ s = codesOf t b ++ u ∧ u ≠ [] ∧ Unmatched t u ∧
      f = ⟨.decodeError, (codesOf t b).length⟩ := by
  constructor
  · intro herror
    obtain ⟨b, u, hb, rfl, hu⟩ := exists_codesOf_append_unmatched hwf s
    by_cases hne : u = []
    · rw [hne, List.append_nil, decodeBits_codesOf hwf hp hb] at herror
      cases herror
    · rw [decodeBits_of_unmatched hwf hp hb hne hu] at herror
      cases herror
      exact ⟨b, u, hb, rfl, hne, hu, rfl⟩
  · rintro ⟨b, u, hb, rfl, hne, hu, rfl⟩
    exact decodeBits_of_unmatched hwf hp hb hne hu

end

/-- Settles O51: both sides say that `b` is covered and `s` its codes. -/
theorem encodeOfDecodedBits : Obligations.EncodeOfDecodedBits := by
  intro t s b hwf hp
  rw [decodeBits_eq_ok_iff hwf hp, encodeBytes_eq_ok_iff, and_self_left]

/-- Settles O52: the bits before the failure are the run of whole codes, the bits from it on the unmatched rest. -/
theorem decodeFailsAtUnmatchedCode : Obligations.DecodeFailsAtUnmatchedCode := by
  intro t s f hwf hp
  rw [decodeBits_eq_error_iff hwf hp]
  constructor
  · rintro ⟨b, u, hb, rfl, hne, hu, rfl⟩
    refine ⟨rfl, ?_, ⟨b, hb, ?_⟩, ?_⟩
    · rw [List.length_append]
      exact Nat.lt_add_of_pos_right (List.length_pos_iff.2 hne)
    · rw [List.take_left, encodeBytes_of_covered hb]
    · rwa [List.drop_left]
  · rintro ⟨hkind, hlt, ⟨b, _, hencode⟩, hu⟩
    obtain ⟨hb, hcodes⟩ := (encodeBytes_eq_ok_iff t b _).1 hencode
    have hinfo : (codesOf t b).length = f.info := by rw [← hcodes, List.length_take_of_le hlt.le]
    refine ⟨b, s.drop f.info, hb, ?_, ?_, hu, ?_⟩
    · rw [← hcodes, List.take_append_drop]
    · exact fun hnil => Nat.not_le.2 hlt (List.drop_eq_nil_iff.1 hnil)
    · rw [hinfo, ← hkind]

end Sys2Proof.Machine
end

section
/-! SUPPORT. The bit-serial matcher on a code, on a run of codes and on unmatched bits (spec R187, R188). -/

namespace Sys2Proof.Machine

open Sys2Proof.Spec

/-- The leaf test of R187: the bits read so far are the code of the symbol found. -/
theorem decodeSerialFrom_of_leaf {t : CodeTable} {acc : Bits} {b : Bool} {e : Byte × Code}
    (h : (t.find? fun e => decide (e.2 = acc ++ [b])) = some e) (i start : Nat) (u : Bits) :
    decodeSerialFrom t i start acc (b :: u) = (decodeSerialFrom t (i + 1) (i + 1) [] u).map (e.1 :: ·) := by
  rw [decodeSerialFrom, h]

theorem decodeSerialFrom_of_no_leaf {t : CodeTable} {acc : Bits} {b : Bool} (h : ∀ e ∈ t, e.2 ≠ acc ++ [b])
    (i start : Nat) (u : Bits) :
    decodeSerialFrom t i start acc (b :: u) =
      if ∃ e ∈ t, acc ++ [b] <+: e.2 then decodeSerialFrom t (i + 1) start (acc ++ [b]) u
      else .error ⟨.decodeError, start⟩ := by
  have hfind : (t.find? fun e => decide (e.2 = acc ++ [b])) = none :=
    List.find?_eq_none.2 fun e he => by simpa using h e he
  have hany : (t.any fun e => isPrefix (acc ++ [b]) e.2 && decide (e.2 ≠ acc ++ [b])) = true ↔
      ∃ e ∈ t, acc ++ [b] <+: e.2 := by
    simp only [List.any_eq_true, Bool.and_eq_true, isPrefix_iff, decide_eq_true_eq]
    exact ⟨fun ⟨e, he, hpre, _⟩ => ⟨e, he, hpre⟩, fun ⟨e, he, hpre⟩ => ⟨e, he, hpre, h e he⟩⟩
  rw [decodeSerialFrom, hfind]
  exact if_congr hany rfl rfl

/-- Unmatched bits fail at the first of them, whether the walk leaves the trie or the stream ends inside it. -/
theorem decodeSerialFrom_of_unmatched {t : CodeTable} (hc : CodeTable.canonical t = true) {acc u : Bits}
    (hne : acc ++ u ≠ []) (hu : Unmatched t (acc ++ u)) (i start : Nat) :
    decodeSerialFrom t i start acc u = .error ⟨.decodeError, start⟩ := by
  induction u generalizing i acc with
  | nil => exact if_neg (by rwa [List.append_nil] at hne)
  | cons b u ih =>
    have hstep : acc ++ b :: u = acc ++ [b] ++ u := List.append_cons acc b u
    rw [hstep] at hne hu
    have hleaf : ∀ e ∈ t, e.2 ≠ acc ++ [b] := fun e he heq =>
      hu e.1 e.2 ((codeOf_eq_some_iff hc _ _).2 he) (heq ▸ List.prefix_append _ _)
    rw [decodeSerialFrom_of_no_leaf hleaf, ih hne hu, ite_self]

section
variable {t : CodeTable} (hwf : CodeTable.wf t = true) (hp : prefixFree t = true)
include hwf hp

/-- From inside a code the walk reaches its leaf: no other code lies on the path. -/
theorem decodeSerialFrom_code_append {a : Byte} {acc v : Bits} (hv : v ≠ []) (hcode : codeOf t a = some (acc ++ v))
    (i start : Nat) (u : Bits) :
    decodeSerialFrom t i start acc (v ++ u) =
      (decodeSerialFrom t (i + v.length) (i + v.length) [] u).map (a :: ·) := by
  have hc := ((wf_iff t).1 hwf).1
  induction v generalizing i acc with
  | nil => exact absurd rfl hv
  | cons b v ih =>
    have hmem := mem_of_codeOf hcode
    rw [List.append_cons] at hcode hmem
    -- an entry met on the path is the entry of `a`
    have honly : ∀ e ∈ t, e.2 = acc ++ [b] → e = (a, acc ++ [b] ++ v) := fun e he heq =>
      entry_eq_of_prefix hc hp he hmem (heq ▸ List.prefix_append _ v) (List.prefix_refl _)
    by_cases hlast : v = []
    · subst hlast
      rw [List.append_nil] at hmem honly
      have hfind : (t.find? fun e => decide (e.2 = acc ++ [b])) = some (a, acc ++ [b]) := by
        cases hf : t.find? fun e => decide (e.2 = acc ++ [b]) with
        | none => exact absurd (decide_eq_true rfl) (List.find?_eq_none.1 hf _ hmem)
        | some e =>
          have hleaf := List.find?_some hf
          rw [honly e (List.mem_of_find?_eq_some hf) (of_decide_eq_true hleaf)]
      exact decodeSerialFrom_of_leaf hfind i start u
    · have hleaf : ∀ e ∈ t, e.2 ≠ acc ++ [b] := fun e he heq => by
        have hcodes := heq.symm.trans (congrArg Prod.snd (honly e he heq))
        exact hlast (List.self_eq_append_right.1 hcodes)
      rw [List.cons_append, decodeSerialFrom_of_no_leaf hleaf, if_pos ⟨_, hmem, List.prefix_append _ v⟩,
        ih hlast hcode, List.length_cons, Nat.add_assoc, Nat.add_comm 1]

theorem decodeSerialFrom_codesOf_append {b : Bytes} (hb : covered b t) (i : Nat) (u : Bits) :
    decodeSerialFrom t i i [] (codesOf t b ++ u) =
      (decodeSerialFrom t (i + (codesOf t b).length) (i + (codesOf t b).length) [] u).map (b ++ ·) := by
  induction b generalizing i with
  | nil => exact (id_map (decodeSerialFrom t i i [] u)).symm
  | cons a b ih =>
    obtain ⟨⟨c, hc⟩, hb⟩ := (covered_cons t a b).1 hb
    have hne : c ≠ [] := List.ne_nil_of_length_pos (codeOf_length hwf hc).1
    rw [codesOf_cons hc, List.append_assoc, decodeSerialFrom_code_append hwf hp (acc := []) hne hc, ih hb,
      List.length_append, Nat.add_assoc]
    generalize i + (c.length + (codesOf t b).length) = j
    cases decodeSerialFrom t j j [] u <;> rfl

end

/-- Settles O53: on a run of whole codes and its unmatched rest, both emit the run and fail where the rest begins. -/
theorem serialDecoderIsDecoder : Obligations.SerialDecoderIsDecoder := by
  intro t s hwf hp
  obtain ⟨b, u, hb, rfl, hu⟩ := exists_codesOf_append_unmatched hwf s
  rw [decodeSerial, decodeSerialFrom_codesOf_append hwf hp hb]
  by_cases hne : u = []
  · subst hne
    rw [List.append_nil, decodeBits_codesOf hwf hp hb, decodeSerialFrom, if_pos rfl, Except.map, List.append_nil]
  · rw [decodeBits_of_unmatched hwf hp hb hne hu,
      decodeSerialFrom_of_unmatched ((wf_iff t).1 hwf).1 (acc := []) hne hu, Nat.zero_add, Except.map]

end Sys2Proof.Machine
end

section
/-! SUPPORT. The faults and results of `DECODE` (spec R180, R184, R185). -/

namespace Sys2Proof.Machine

open Sys2Proof.Spec

/-- The faults of `DECODE` in READY in the order in which it checks for them, each with its `ERRINFO`. -/
inductive DecodeFault (s : State) : FaultKind → Nat → Prop
  | table (noPrefixCode : prefixFree s.ct = false) : DecodeFault s .tableError 0
  | stream (f : Failure) (prefixCode : prefixFree s.ct = true) (unmatched : decodeBits s.bits s.ct = .error f) :
      DecodeFault s f.kind f.info
  | room (r : Bytes) (prefixCode : prefixFree s.ct = true) (symbols : decodeBits s.bits s.ct = .ok r)
      (overflow : s.cap.obuf < s.obuf.length + r.length) : DecodeFault s .bufferError s.obuf.length

theorem exec_decode_of_fault {s : State} {f : FaultKind} {info : Nat} (hs : s.err = 0#8) (h : DecodeFault s f info) :
    exec .decode s = .next (faulted f.code.toNat info s) := by
  rw [← raise_eq_faulted, exec, execDecode, whenReady_of_ready hs]
  cases h with
  | table noPrefixCode => rw [if_pos noPrefixCode]
  | stream f prefixCode unmatched => simp only [prefixCode, unmatched, raiseFailure, Bool.true_eq_false, if_false]
  | room r prefixCode symbols overflow =>
    simp only [prefixCode, symbols, appendObuf_of_overflow overflow, Bool.true_eq_false, if_false]

/-- Settles O40. -/
theorem decodeAppendsSymbols : Obligations.DecodeAppendsSymbols := by
  refine ⟨decode_encode_of_wf (i := .decode) rfl, fun s b hs hwf hp hb hbits => ?_⟩
  have symbols : decodeBits s.bits s.ct = .ok b := hbits ▸ decodeBits_codesOf hwf hp hb
  exact ⟨fun fits => exec_eq_answered hs hs (.decode b hp symbols fits),
    fun overflow => exec_decode_of_fault hs (.room b hp symbols overflow)⟩

/-- Settles O41. -/
theorem decodeRefusesBadTableOrStream : Obligations.DecodeRefusesBadTableOrStream := by
  refine fun s hs => ⟨fun noPrefixCode => exec_decode_of_fault hs (.table noPrefixCode),
    fun hwf hp b rest hb hbits hne hrest => ?_⟩
  have unmatched : decodeBits s.bits s.ct = .error ⟨.decodeError, (codesOf s.ct b).length⟩ :=
    hbits ▸ decodeBits_of_unmatched hwf hp hb hne hrest
  exact exec_decode_of_fault hs (.stream _ hp unmatched)

end Sys2Proof.Machine
end

section
/-! SUPPORT. The way into FAULTED, the way out of it, and what a run without a reset keeps
(spec R206 to R210, R230). -/

namespace Sys2Proof.Machine

open Sys2Proof.Spec

/-- R78 by the opcode map: a word that selects no row is illegal. -/
theorem decode_eq_none_of_no_row {w : CommandWord} (h : ∀ row ∈ opcodeRows, w &&& row.mask ≠ row.pattern) :
    decode w = none := by
  cases hw : decode w with
  | none => rfl
  | some i =>
    obtain ⟨row, hrow, -, hmatch⟩ := (decoderFollowsOpcodeMap.1 w i.mnemonic).1 ⟨i, hw, rfl⟩
    exact absurd hmatch (h row hrow)

/-- Settles O5. -/
theorem illegalWordRaises : Obligations.IllegalWordRaises := by
  intro s w h
  rw [transact_of_illegal (decode_eq_none_of_no_row h)]
  refine ⟨fun hs => ?_, fun hs => ?_⟩
  · rw [illegalWord_of_ready hs, raise_eq_faulted]
    rfl
  · rw [illegalWord_of_faulted hs]
    rfl

section
variable {s t : State} {w : CommandWord}

/-- From READY, `ERR` stays 0 but for the fault entry of R207. -/
theorem transact_in_ready_cases (hs : s.err = 0#8) (h : transact w s = .next t) :
    t.err = 0#8 ∨ ∃ f info, t = raise f info s := by
  cases hw : decode w with
  | none =>
    rw [transact_of_illegal hw, illegalWord_of_ready hs] at h
    cases h
    exact .inr ⟨_, _, rfl⟩
  | some i =>
    rw [transact_of_decode hw] at h
    cases exec_ends h with
    | raised _ f info => exact .inr ⟨f, info, rfl⟩
    | ignored faulted => exact absurd hs faulted
    | reset _ => exact .inl rfl
    | rdreg _ _ => exact .inl hs
    | completed _ hc => exact .inl (hc.err_eq.trans hs)

/-- R208: in FAULTED a word other than that of `RESET` writes the response alone. -/
theorem transact_in_faulted_keeps (hs : s.err ≠ 0#8) (hw : w ≠ 0x0100#16) (h : transact w s = .next t) :
    ∃ r, t = { s with rsp := r } := by
  obtain ⟨-, hfaulted, -, -⟩ := transactionOrder w s
  obtain ⟨hrdreg, hother⟩ := hfaulted hw hs
  by_cases hd : ∃ r, decode w = some (.rdreg r)
  · obtain ⟨r, hr⟩ := hd
    cases h.symm.trans (hrdreg r hr)
    exact ⟨_, rfl⟩
  · cases h.symm.trans (hother (not_exists.1 hd))
    exact ⟨_, rfl⟩

/-- A step from FAULTED, said once: one of the two resets (R210), or the queue and the response alone (R208). -/
theorem step_in_faulted_cases (hs : s.err ≠ 0#8) (h : step s = .next t) :
    (∃ rest r, (s.requests = .command 0x0100#16 :: rest ∨ s.requests = .rst :: rest) ∧
      t = { toReset s with requests := rest, rsp := r }) ∨
    ∃ r, t = { s with requests := s.requests.tail, rsp := r } := by
  cases hq : s.requests with
  | nil =>
    cases h.symm.trans (step_of_idle hq)
    exact .inr ⟨s.rsp, by rw [List.tail_nil, ← hq]⟩
  | cons a rest =>
    cases a with
    | rst =>
      cases h.symm.trans (step_of_rst hq)
      exact .inl ⟨rest, none, .inr rfl, rfl⟩
    | command w =>
      rw [step_of_command hq] at h
      by_cases hw : w = 0x0100#16
      · subst hw
        obtain ⟨hreset, -⟩ := transactionOrder 0x0100#16 { s with requests := rest }
        cases h.symm.trans (hreset rfl)
        exact .inl ⟨rest, _, .inl rfl, rfl⟩
      · exact .inr (transact_in_faulted_keeps (s := { s with requests := rest }) hs hw h)

theorem noReset_tail {l : List HostAction} (h : noReset l) : noReset l.tail :=
  fun a ha => h a (List.mem_of_mem_tail ha)

/-- R208 as a step: with no reset next, a step from FAULTED takes an action off the queue and writes the response. -/
theorem step_in_faulted_of_noReset (hs : s.err ≠ 0#8) (hn : noReset s.requests) (h : step s = .next t) :
    ∃ r, t = { s with requests := s.requests.tail, rsp := r } := by
  rcases step_in_faulted_cases hs h with ⟨rest, _, hq | hq, -⟩ | hkept
  · exact absurd rfl (hn (.command 0x0100#16) (hq ▸ List.mem_cons_self)).2
  · exact absurd rfl (hn .rst (hq ▸ List.mem_cons_self)).1
  · exact hkept

end

/-- Settles O12: the only end with `ERR` not 0 is the fault entry. -/
theorem faultIsAllOrNothing : Obligations.FaultIsAllOrNothing := by
  intro w s t hs h ht
  rcases transact_in_ready_cases hs h with hready | ⟨f, info, rfl⟩
  · exact absurd hready ht
  · exact ⟨rfl, f.code_le_six⟩

/-- Settles O13: of the ends of a step from FAULTED only the two resets clear `ERR`. -/
theorem onlyResetLeavesFaulted : Obligations.OnlyResetLeavesFaulted := by
  intro s t hs h ht
  rcases step_in_faulted_cases hs h with ⟨rest, _, hq, rfl⟩ | ⟨_, rfl⟩
  · exact ⟨⟨rest, hq⟩, rfl, rfl, rfl, rfl, rfl, rfl⟩
  · exact absurd ht hs

/-- Settles O14, by induction on the number of steps. -/
theorem firstFaultIsKept : Obligations.FirstFaultIsKept := by
  intro k
  induction k with
  | zero =>
    intro s t _ _ h
    cases h
    rfl
  | succ k ih =>
    intro s t hs hn h
    obtain ⟨u, hu, -⟩ := stepKeepsCapacities s
    rw [run_succ_of_step hu] at h
    obtain ⟨r, rfl⟩ := step_in_faulted_of_noReset hs hn hu
    simpa only [List.drop_tail] using ih { s with requests := s.requests.tail, rsp := r } t hs (noReset_tail hn) h

/-- Settles O15, by induction on the number of steps: had the unit been FAULTED at the start of what is left of the
run, it would have kept that fault to the end (O14). -/
theorem cleanEndMeansNoFault : Obligations.CleanEndMeansNoFault := by
  intro k
  induction k with
  | zero =>
    intro s t _ h ht j hj
    cases Nat.le_zero.1 hj
    exact ⟨t, h, ht⟩
  | succ k ih =>
    intro s t hn h ht j hj
    cases j with
    | zero =>
      refine ⟨s, run_zero s, by_contra fun hs => hs ?_⟩
      have hkept := firstFaultIsKept (k + 1) s t hs hn h
      exact (congrArg State.err hkept).symm.trans ht
    | succ j =>
      obtain ⟨u, hu, -, hrequests⟩ := stepKeepsCapacities s
      rw [run_succ_of_step hu] at h ⊢
      exact ih u t (hrequests ▸ noReset_tail hn) h ht j (Nat.le_of_succ_le_succ hj)

end Sys2Proof.Machine
end

section
/-! SUPPORT. The pulse of `rst`, and a command sequence as a whole: from which state to which its words lead, whatever
response stands before them and whatever the host sends after them (spec R39, R70, R81, R230). -/

namespace Sys2Proof.Machine

open Sys2Proof.Spec

/-- Settles O9: R230 writes every element of R39 and leaves the capacities and the rest of the queue. -/
theorem rstPulseResets : Obligations.RstPulseResets := fun _ _ h => step_of_rst h

/-- Sent from `s`, the words `ws` lead to `t` in as many steps. The queue and the response of `s` and `t` do not matter:
the one holds `ws` and then whatever follows, and no command reads the other (log entries 2 and 5). -/
def LeadsTo (ws : List CommandWord) (s t : State) : Prop :=
  ∀ (rest : List HostAction) (rsp : Option Response) (k : Nat), ∃ rsp',
    core.run (ws.length + k) { s with requests := ws.map HostAction.command ++ rest, rsp := rsp } =
      core.run k { t with requests := rest, rsp := rsp' }

/-- What a completed command does depends neither on the queue nor on the response that stands. -/
theorem Completes.withHost {s t : State} {i : Instr} (h : Completes s i t) (q : List HostAction)
    (rsp : Option Response) : Completes { s with requests := q, rsp := rsp } i { t with requests := q } := by
  cases h with
  | nop => exact .nop
  | pushi v room => exact .pushi v room
  | pushb b legal room => exact .pushb b legal room
  | popo v rest head => exact .popo v rest head
  | popb b rest head => exact .popb b rest head
  | clri => exact .clri
  | clro => exact .clro
  | clrb => exact .clrb
  | tblclr => exact .tblclr
  | tblset a pos le => exact .tblset a pos le
  | tblgetAbsent a absent => exact .tblgetAbsent a absent
  | tblget a c present fits => exact .tblget a c present fits
  | ldtbl t pos block => exact .ldtbl t pos block
  | sttbl nonempty fits => exact .sttbl nonempty fits
  | pack fits => exact .pack fits
  | unpack r payload fits => exact .unpack r payload fits
  | encode r codes fits => exact .encode r codes fits
  | decode r prefixCode symbols fits => exact .decode r prefixCode symbols fits

section
variable {s t u : State} {i : Instr} {ws vs : List CommandWord}

theorem leadsTo_nil (s : State) : LeadsTo [] s s := fun _ rsp k => ⟨rsp, by simp⟩

theorem LeadsTo.append (h : LeadsTo ws s t) (h' : LeadsTo vs t u) : LeadsTo (ws ++ vs) s u := by
  intro rest rsp k
  obtain ⟨rsp₁, hws⟩ := h (vs.map HostAction.command ++ rest) rsp (vs.length + k)
  obtain ⟨rsp₂, hvs⟩ := h' rest rsp₁ k
  refine ⟨rsp₂, ?_⟩
  rw [List.length_append, List.map_append, List.append_assoc, Nat.add_assoc, hws, hvs]

/-- `run_of_completes` at any queue and response. -/
theorem run_command_of_completes (h : Completes s i t) (hi : i.wf = true) (hs : s.err = 0#8)
    (rest : List HostAction) (rsp : Option Response) (k : Nat) :
    core.run (k + 1) { s with requests := .command (encode i) :: rest, rsp := rsp } =
      core.run k { t with requests := rest } :=
  run_of_completes (s := { s with requests := _, rsp := rsp }) hi rfl hs (h.withHost rest rsp) k

theorem leadsTo_command (hi : i.wf = true) (hs : s.err = 0#8) (h : Completes s i t) : LeadsTo [encode i] s t := by
  intro rest rsp k
  refine ⟨t.rsp, ?_⟩
  rw [List.length_singleton, Nat.add_comm]
  exact run_command_of_completes h hi hs rest rsp k

/-- The response of the end state does not matter. -/
theorem LeadsTo.of_respond {d : Data} (h : LeadsTo ws s (respond d t)) : LeadsTo ws s t := h

theorem LeadsTo.command (h : LeadsTo ws s t) (hi : i.wf = true) (ht : t.err = 0#8) (hc : Completes t i u) :
    LeadsTo (ws ++ [encode i]) s u :=
  h.append (leadsTo_command hi ht hc)

/-- A sequence sent alone, whose last command completes: the response at the end is that command's. -/
theorem LeadsTo.run_command {n : Nat} (h : LeadsTo ws s t) (hi : i.wf = true) (ht : t.err = 0#8) (hu : u.err = 0#8)
    (hc : Completes t i (respond (zext32 n) u)) :
    core.run ((ws ++ [encode i]).map HostAction.command).length
        { s with requests := (ws ++ [encode i]).map HostAction.command } =
      .next (answered n { u with requests := [] }) := by
  obtain ⟨rsp, hws⟩ := h [.command (encode i)] s.rsp 1
  rw [List.length_map, List.length_append, List.map_append, ← respond_eq_answered (s := { u with requests := [] }) hu]
  exact hws.trans (run_command_of_completes hc hi ht [] rsp 0)

/-- A sequence loads the table of the READY state it leads to (log entry 20). -/
theorem LeadsTo.loads (h : LeadsTo ws s t) (ht : t.err = 0#8) : s.loads (ws.map HostAction.command) t.ct := by
  obtain ⟨rsp, hws⟩ := h [] s.rsp 0
  refine ⟨{ t with requests := [], rsp := rsp }, ?_, ht, rfl⟩
  rw [List.append_nil, Nat.add_zero] at hws
  rw [List.length_map]
  exact hws

end

/-- R81: with room, `BYTES` appends its bytes to `IBUF`. -/
theorem leadsTo_bytes (b : Bytes) (s : State) (hs : s.err = 0#8) (hroom : s.ibuf.length + b.length ≤ s.cap.ibuf) :
    LeadsTo (AsmItem.bytes b).expand s { s with ibuf := s.ibuf ++ b } := by
  induction b generalizing s with
  | nil =>
    rw [List.append_nil]
    exact leadsTo_nil s
  | cons v b ih =>
    rw [List.length_cons] at hroom
    have hfree : s.ibuf.length ≠ s.cap.ibuf := by omega
    have hpush : LeadsTo [encode (.pushi v)] s { s with ibuf := s.ibuf ++ [v] } :=
      (leadsTo_command rfl hs (.pushi v hfree)).of_respond
    have hrest := ih { s with ibuf := s.ibuf ++ [v] } hs (by simp; omega)
    rw [List.append_assoc] at hrest
    exact hpush.append hrest

/-- R81: `SETCODE` stores its code and leaves `BITS` empty. -/
theorem leadsTo_setcode {s : State} (hs : s.err = 0#8) (a : Byte) {c : Code} (hpos : 1 ≤ c.length)
    (hle : c.length ≤ 255) (hroom : c.length ≤ s.cap.bits) :
    LeadsTo (AsmItem.setcode a c).expand s { s with ct := putCode s.ct a c, bits := [] } := by
  have hclear : LeadsTo [encode .clrb] s { s with bits := [] } :=
    (leadsTo_command rfl hs .clrb).of_respond
  have hpush : LeadsTo (pushbWords c) { s with bits := [] } { s with bits := c } := by
    intro rest rsp k
    rw [pushbWords, List.length_map]
    exact run_pushbWords c { s with bits := [], requests := _, rsp := rsp } rest k hs (by simpa using hroom) rfl
  exact ((hclear.append hpush).command rfl hs (.tblset a hpos hle)).of_respond

/-- R234: the entries of a table, sent in ascending order above those already there, are added to the table. -/
theorem leadsTo_tableSequence (t : CodeTable) (s : State) (hs : s.err = 0#8) (hbits : s.bits = [])
    (hwf : CodeTable.wf (s.ct ++ t) = true) (hroom : ∀ e ∈ t, e.2.length ≤ s.cap.bits) :
    LeadsTo ((tableSequence t).flatMap AsmItem.expand) s { s with ct := s.ct ++ t } := by
  induction t generalizing s with
  | nil =>
    rw [List.append_nil]
    exact leadsTo_nil s
  | cons e t ih =>
    obtain ⟨hcanonical, hlen⟩ := (wf_iff _).1 hwf
    obtain ⟨hpos, hle⟩ := hlen e (List.mem_append_right _ List.mem_cons_self)
    obtain ⟨heRoom, htRoom⟩ := List.forall_mem_cons.1 hroom
    have habove : ∀ f ∈ s.ct, f.1.toNat < e.1.toNat := fun f hf =>
      (List.pairwise_append.1 ((canonical_iff_pairwise _).1 hcanonical)).2.2 f hf e List.mem_cons_self
    have hput := leadsTo_setcode hs e.1 hpos hle heRoom
    rw [putCode_of_forall_lt habove e.2, ← hbits] at hput
    rw [List.append_cons] at hwf ⊢
    exact hput.append (ih { s with ct := s.ct ++ [e] } hs hbits hwf htRoom)

end Sys2Proof.Machine
end

section
/-! SUPPORT. What the loading sequences load (spec R234, R237, R239). -/

namespace Sys2Proof.Machine

/-- P1 of R239 read element by element, as far as a loading sequence needs it. -/
theorem empty_of_cleanStart {s : State} (h : s.cleanStart) : s.ibuf = [] ∧ s.bits = [] ∧ s.ct = [] :=
  ⟨(congrArg State.ibuf h).symm, (congrArg State.bits h).symm, (congrArg State.ct h).symm⟩

/-- R234 from a clean start. -/
theorem leadsTo_tableSequence_of_cleanStart {s : State} {t : CodeTable} (hclean : s.cleanStart)
    (hwf : CodeTable.wf t = true) (hroom : ∀ a code, codeOf t a = some code → code.length ≤ s.cap.bits) :
    LeadsTo ((tableSequence t).flatMap AsmItem.expand) s { s with ct := t } := by
  obtain ⟨-, hbits, hct⟩ := empty_of_cleanStart hclean
  obtain ⟨hcanonical, -⟩ := (wf_iff t).1 hwf
  have hcodes : ∀ e ∈ t, e.2.length ≤ s.cap.bits := fun e he =>
    hroom e.1 e.2 ((codeOf_eq_some_iff hcanonical e.1 e.2).2 he)
  have hadded := leadsTo_tableSequence t s (ready_of_cleanStart hclean) hbits (by rwa [hct]) hcodes
  rwa [hct] at hadded

theorem leadsTo_bytes_of_empty {b : Bytes} {s : State} (hs : s.err = 0#8) (hibuf : s.ibuf = [])
    (hroom : b.length ≤ s.cap.ibuf) : LeadsTo (AsmItem.bytes b).expand s { s with ibuf := b } := by
  have hpushed := leadsTo_bytes b s hs (by simpa [hibuf] using hroom)
  rwa [hibuf] at hpushed

/-- R237, steps 1 and 2, from a clean start: `LDTBL` takes the block's table and leaves what follows the block. -/
theorem leadsTo_loadBlock {s : State} {y : Bytes} {t : CodeTable} {n : Nat} (hclean : s.cleanStart)
    (hblock : deserialize y = .ok (t, n)) (hroom : y.length ≤ s.cap.ibuf) :
    LeadsTo ((AsmItem.bytes y).expand ++ [encode .ldtbl]) s { s with ct := t, ibuf := y.drop n } := by
  obtain ⟨hibuf, -, -⟩ := empty_of_cleanStart hclean
  have hs := ready_of_cleanStart hclean
  exact ((leadsTo_bytes_of_empty hs hibuf hroom).command rfl hs (.ldtbl t n hblock)).of_respond

/-- Settles O58: what a sequence loads is the table of the state it leads to, and it loads no other. -/
theorem sequencesLoadTheirTable : Obligations.SequencesLoadTheirTable := by
  refine ⟨fun s t hclean hwf hroom => ?_, fun s y t n hclean hblock hroom => ?_⟩
  · have hs := ready_of_cleanStart hclean
    have hcodesRoom := fun a code hcode => (hroom a code hcode).2.2
    have hloads : s.loads (actionsOf (tableSequence t)) t :=
      (leadsTo_tableSequence_of_cleanStart hclean hwf hcodesRoom).loads hs
    exact ⟨hloads, loadsPrefixCode_iff hloads⟩
  · have hs := ready_of_cleanStart hclean
    have hloads : s.loads (actionsOf [.bytes y, .command .ldtbl]) t :=
      (leadsTo_loadBlock hclean hblock hroom.1).loads hs
    exact ⟨hloads, loadsPrefixCode_iff hloads⟩

end Sys2Proof.Machine
end

section
/-! SUPPORT. The Frame: what the compressing and the decompressing commands do, each alone and after the sequences
that load their data (spec R89, R236, R237, R239). -/

namespace Sys2Proof.Machine

open Sys2Proof.Spec

/-- R89: the block at the head of a Frame is read, and its payload is left. -/
theorem deserialize_frame {t : CodeTable} (hwf : CodeTable.wf t = true) (hne : 1 ≤ tcnt t) (r : Bits) :
    deserialize (frame t r) = .ok (t, (serialize t).length) := deserializeOfSerialize t (pack r) hwf hne

theorem drop_frame (t : CodeTable) (r : Bits) : (frame t r).drop (serialize t).length = pack r := List.drop_left

theorem headD_pack_toNat (r : Bits) : ((pack r).headD 0#8).toNat = padCount r.length := padCount_byte r.length

section
variable {s : State} {t : CodeTable} {b : Bytes}

/-! Each command of R236 and R237 where the buffer it fills is empty. -/

theorem completes_encode_of_empty (hbits : s.bits = []) (hb : covered s.ibuf s.ct)
    (hroom : (codesOf s.ct s.ibuf).length ≤ s.cap.bits) :
    Completes s .encode (encodeDone (codesOf s.ct s.ibuf).length { s with bits := codesOf s.ct s.ibuf }) := by
  have h := Completes.encode (s := s) _ (encodeBytes_of_covered hb) (by simpa [hbits] using hroom)
  rwa [hbits, List.nil_append] at h

theorem completes_sttbl_of_empty (hobuf : s.obuf = []) (hne : 1 ≤ tcnt s.ct)
    (hroom : (serialize s.ct).length ≤ s.cap.obuf) :
    Completes s .sttbl (respond (zext32 (serialize s.ct).length) { s with obuf := serialize s.ct }) := by
  have h := Completes.sttbl (s := s) (Nat.ne_of_gt hne) (by simpa [hobuf] using hroom)
  rwa [hobuf, List.nil_append] at h

theorem completes_unpack_of_pack {r : Bits} (hibuf : s.ibuf = pack r) (hbits : s.bits = [])
    (hroom : r.length ≤ s.cap.bits) :
    Completes s .unpack (unpackDone (padCount r.length) { s with bits := r }) := by
  have h := Completes.unpack (s := s) r (hibuf ▸ unpack_pack r) (by simpa [hbits] using hroom)
  rwa [hbits, List.nil_append, hibuf, headD_pack_toNat] at h

theorem completes_decode_of_codes (hbits : s.bits = codesOf s.ct b) (hobuf : s.obuf = [])
    (hwf : CodeTable.wf s.ct = true) (hp : prefixFree s.ct = true) (hb : covered b s.ct)
    (hroom : b.length ≤ s.cap.obuf) : Completes s .decode (decodeDone b.length { s with obuf := b }) := by
  have h := Completes.decode (s := s) b hp (hbits ▸ decodeBits_codesOf hwf hp hb) (by simpa [hobuf] using hroom)
  rwa [hobuf, List.nil_append] at h

/-- R236, steps 3 to 5: with `OBUF` and `BITS` empty and room, the three commands complete and leave the Frame. -/
theorem compress_completes (hobuf : s.obuf = []) (hbits : s.bits = []) (hibuf : s.ibuf = b) (hct : s.ct = t)
    (hne : 1 ≤ tcnt t) (hb : covered b t) (hbitsRoom : (codesOf t b).length ≤ s.cap.bits)
    (hobufRoom : (frame t (codesOf t b)).length ≤ s.cap.obuf) :
    ∃ s1 s2, Completes s .encode s1 ∧ Completes s1 .sttbl s2 ∧
      Completes s2 .pack (respond (zext32 (padCount (codesOf t b).length))
        { s with ibuf := [], obuf := frame t (codesOf t b), bits := [],
                 pad := BitVec.ofNat 4 (padCount (codesOf t b).length) }) := by
  subst hibuf hct
  rw [frame, List.length_append] at hobufRoom
  exact ⟨_, _, completes_encode_of_empty hbits hb hbitsRoom,
    completes_sttbl_of_empty hobuf hne (Nat.le_of_add_right_le hobufRoom), .pack hobufRoom⟩

/-- R237, steps 2 to 4: with `OBUF` and `BITS` empty and room, the three commands complete and leave the bytes. -/
theorem decompress_completes (hobuf : s.obuf = []) (hbits : s.bits = []) (hibuf : s.ibuf = frame t (codesOf t b))
    (hwf : CodeTable.wf t = true) (hne : 1 ≤ tcnt t) (hp : prefixFree t = true) (hb : covered b t)
    (hbitsRoom : (codesOf t b).length ≤ s.cap.bits) (hobufRoom : b.length ≤ s.cap.obuf) :
    ∃ s1 s2, Completes s .ldtbl s1 ∧ Completes s1 .unpack s2 ∧
      Completes s2 .decode (respond (zext32 b.length)
        { s with ibuf := [], obuf := b, bits := [], ct := t,
                 pad := BitVec.ofNat 4 (padCount (codesOf t b).length) }) := by
  have hldtbl := Completes.ldtbl (s := s) t _ (hibuf ▸ deserialize_frame hwf hne _)
  rw [hibuf, drop_frame] at hldtbl
  exact ⟨_, _, hldtbl, completes_unpack_of_pack rfl hbits hbitsRoom,
    completes_decode_of_codes rfl hobuf hwf hp hb hobufRoom⟩

end

/-- Settles O56: each command's guard holds where the one before it ends. -/
theorem frameRoundTrip : Obligations.FrameRoundTrip := by
  intro s u b r y hs hibuf hobuf hbits hwf hne hp hb hr hy hrs hys hu huibuf huobuf hubits hru hbu
  subst hr hy
  obtain ⟨s1, s2, hencode, hsttbl, hpack⟩ := compress_completes hobuf hbits hibuf rfl hne hb hrs hys
  obtain ⟨u1, u2, hldtbl, hunpack, hdecode⟩ := decompress_completes huobuf hubits huibuf hwf hne hp hb hru hbu
  have hs1 := hencode.err_eq.trans hs
  have hs2 := hsttbl.err_eq.trans hs1
  have hu1 := hldtbl.err_eq.trans hu
  have hu2 := hunpack.err_eq.trans hu1
  exact ⟨⟨s1, s2, _, exec_of_completes hs hencode, exec_of_completes hs1 hsttbl, exec_of_completes hs2 hpack,
      hs, rfl, rfl, rfl⟩,
    ⟨u1, u2, _, exec_of_completes hu hldtbl, exec_of_completes hu1 hunpack, exec_of_completes hu2 hdecode,
      hu, rfl, rfl, rfl, rfl⟩⟩

theorem actionsOf_compressionSequence (t : CodeTable) (b : Bytes) :
    actionsOf (compressionSequence t b) =
      ((tableSequence t).flatMap AsmItem.expand ++ (AsmItem.bytes b).expand ++ [encode .encode] ++ [encode .sttbl] ++
        [encode .pack]).map HostAction.command := by
  rw [actionsOf, compressionSequence, List.flatMap_append]
  simp only [List.flatMap_cons, List.flatMap_nil, List.append_assoc]
  rfl

theorem actionsOf_decompressionSequence (y : Bytes) :
    actionsOf (decompressionSequence y) =
      ((AsmItem.bytes y).expand ++ [encode .ldtbl] ++ [encode .unpack] ++ [encode .decode]).map HostAction.command := by
  simp only [List.append_assoc]
  rfl

section
variable {c : Capacities} {t : CodeTable} {b : Bytes} (hwf : CodeTable.wf t = true) (hne : 1 ≤ tcnt t)
  (hb : covered b t) (hbitsRoom : (codesOf t b).length ≤ c.bits)
include hwf hne hb hbitsRoom

/-- R236 from the reset state: the table and the bytes are loaded, then the three commands complete. -/
theorem run_compressionSequence (hcodesRoom : ∀ a code, codeOf t a = some code → code.length ≤ c.bits)
    (hibufRoom : b.length ≤ c.ibuf) (hobufRoom : (frame t (codesOf t b)).length ≤ c.obuf) :
    core.run (actionsOf (compressionSequence t b)).length
        { State.resetAt c with requests := actionsOf (compressionSequence t b) } =
      .next (answered (padCount (codesOf t b).length)
        { State.resetAt c with
          obuf := frame t (codesOf t b), ct := t, pad := BitVec.ofNat 4 (padCount (codesOf t b).length) }) := by
  have htable := leadsTo_tableSequence_of_cleanStart (cleanStart_resetAt c) hwf hcodesRoom
  have hbytes := leadsTo_bytes_of_empty (s := { State.resetAt c with ct := t }) rfl rfl hibufRoom
  obtain ⟨s1, s2, hencode, hsttbl, hpack⟩ :=
    compress_completes (s := { State.resetAt c with ct := t, ibuf := b }) rfl rfl rfl rfl hne hb hbitsRoom hobufRoom
  have hloaded := (htable.append hbytes).command rfl rfl hencode
  have hencoded := hloaded.command rfl hencode.err_eq hsttbl
  rw [actionsOf_compressionSequence]
  exact hencoded.run_command rfl (hsttbl.err_eq.trans hencode.err_eq) rfl hpack

/-- R237 from the reset state: the Frame is pushed, then the three commands complete. -/
theorem run_decompressionSequence (hp : prefixFree t = true)
    (hibufRoom : (frame t (codesOf t b)).length ≤ c.ibuf) (hobufRoom : b.length ≤ c.obuf) :
    core.run (actionsOf (decompressionSequence (frame t (codesOf t b)))).length
        { State.resetAt c with requests := actionsOf (decompressionSequence (frame t (codesOf t b))) } =
      .next (answered b.length
        { State.resetAt c with
          obuf := b, ct := t, pad := BitVec.ofNat 4 (padCount (codesOf t b).length) }) := by
  have hbytes := leadsTo_bytes_of_empty (s := State.resetAt c) rfl rfl hibufRoom
  obtain ⟨s1, s2, hldtbl, hunpack, hdecode⟩ :=
    decompress_completes (s := { State.resetAt c with ibuf := frame t (codesOf t b) }) rfl rfl rfl hwf hne hp hb
      hbitsRoom hobufRoom
  have hloaded := hbytes.command rfl rfl hldtbl
  have hunpacked := hloaded.command rfl hldtbl.err_eq hunpack
  rw [actionsOf_decompressionSequence]
  exact hunpacked.run_command rfl (hunpack.err_eq.trans hldtbl.err_eq) rfl hdecode

end

/-- Settles O57: one lemma per sequence, at the codes and the Frame written out. -/
theorem pipelinesFromReset : Obligations.PipelinesFromReset := by
  intro c t b r y hwf hne hp hb hr hy hcodesRoom hbitsRoom hbi hyi hbo hyo
  subst hr hy
  exact ⟨run_compressionSequence hwf hne hb hbitsRoom hcodesRoom hbi hyo,
    run_decompressionSequence hwf hne hb hbitsRoom hp hyi hbo⟩

end Sys2Proof.Machine
end
